-- ==== Sys2Proof/Word.lean ====
section
/-! DEFINITION. The machine's plain data types: the word, the seven control signals and the four stages
(spec/00_scope.md R8, spec/10_state.md R21, R28, R29). -/

namespace Sys2Proof

/-- The default of parameter `XLEN` of 00_scope.md R4: the width in bits of a register, of the ALU result and of a
data-memory cell (10_state.md R21, decision D1; log entry 4). Every definition over words takes the width as an
argument; where none is written it is this one. -/
abbrev Config.xlen : Nat := 16

/-- A register, ALU or data-cell value: a residue in `[0, 2^XLEN)` (00_scope.md R8). -/
abbrev Word (xlen : Nat := Config.xlen) := BitVec xlen

/-- `wrap(v) = v mod 2^XLEN` of an exact integer (00_scope.md R8). -/
def wrap {xlen : Nat} (v : Int) : Word xlen := BitVec.ofInt xlen v

/-- The four stages (10_state.md R28). -/
inductive Stage where
  | fetch
  | decode
  | execute
  | writeBack
  deriving DecidableEq, Repr, Inhabited

/-- The seven one-bit control signals, in the order of 10_state.md R29. -/
structure ControlSignals where
  /-- operand-B mux select: 0 = register, 1 = immediate -/
  MB : Bool
  /-- write-back mux select: 0 = ALU result, 1 = memory -/
  MD : Bool
  /-- register write enable -/
  RW : Bool
  /-- memory write enable -/
  MW : Bool
  /-- program-counter load enable -/
  PL : Bool
  /-- jump versus branch mode: 1 = jump, 0 = branch -/
  JB : Bool
  /-- branch condition polarity: decoded, read by no rule (40_stage_machine.md R109) -/
  BC : Bool
  deriving DecidableEq, Repr, Inhabited

end Sys2Proof
end

