-- ==== Sys2Proof/Syntax.lean ====
section
/-! DEFINITION. Instructions as syntax: the opcode tags, the instruction record of spec/10_state.md R27, and `Instr`,
one constructor per row of spec/opcode_table.json. -/

namespace Sys2Proof

/-- The opcode tags of 00_scope.md R1, and `UNKNOWN(text)` for an unrecognised mnemonic kept as given (R27, R89). -/
inductive Tag where
  | add | sub | and | or | addi | ldi | mov | load | store | brz | jmp | nop
  | unknown (text : List Char)
  deriving DecidableEq, Repr

/-- An instruction record: the seven components of 10_state.md R27. `none` is "unset", which is not zero
(00_scope.md R9). A register index is kept as parsed, so it may exceed 7 (30_encoding.md R83). -/
structure Record where
  opcode : Tag
  dest : Option Nat
  src1 : Option Nat
  src2 : Option Nat
  immediate : Option Int
  address : Option Int
  binary : BitVec 16
  deriving DecidableEq, Repr

/-- Which of a record's five operand fields are set. -/
structure Layout where
  dest : Bool
  src1 : Bool
  src2 : Bool
  immediate : Bool
  address : Bool
  deriving DecidableEq, Repr

/-- The instructions with their typed operands (30_encoding.md R80): register indices as parsed, `immediate` and
`address` integers of unbounded range (`IMM_DOMAIN`, R84). -/
inductive Instr where
  | add (dest src1 src2 : Nat)
  | sub (dest src1 src2 : Nat)
  | and (dest src1 src2 : Nat)
  | or (dest src1 src2 : Nat)
  | addi (dest src1 : Nat) (immediate : Int)
  | ldi (dest : Nat) (immediate : Int)
  | mov (dest : Nat) (immediate : Int)
  | load (dest src1 : Nat)
  | store (src1 src2 : Nat)
  | brz (src1 : Nat) (address : Int)
  | jmp (src1 : Nat)
  | nop
  | unknown (text : List Char)
  deriving DecidableEq, Repr

/-- The tag of an instruction. -/
def Instr.tag : Instr → Tag
  | .add _ _ _ => .add
  | .sub _ _ _ => .sub
  | .and _ _ _ => .and
  | .or _ _ _ => .or
  | .addi _ _ _ => .addi
  | .ldi _ _ => .ldi
  | .mov _ _ => .mov
  | .load _ _ => .load
  | .store _ _ => .store
  | .brz _ _ => .brz
  | .jmp _ => .jmp
  | .nop => .nop
  | .unknown text => .unknown text

end Sys2Proof
end

