-- ==== Sys2Proof/Config.lean ====
section
/-! DEFINITION. The parameters the machine takes as arguments (spec/00_scope.md R4, spec/92_eei_decisions.md), what is
fixed for it, and the values the spec leaves free (spec/70_reset_and_hazards.md R221). The defaults of the parameters
stand in Word.lean (`XLEN`), Decode.lean (`OPC`) and Machine/Defaults.lean (the others). -/

namespace Sys2Proof

/-- `NREG`: the number of general registers (10_state.md R20). -/
abbrev Config.nreg : Nat := 8

/-- The two values of parameter `ALU_OR_MODE` (41_alu_register.md R134, decision D5). -/
inductive AluOrMode where
  | tableLiteral
  | bitwiseOr
  deriving DecidableEq, Repr

/-- The open parameters of 92_eei_decisions.md other than `XLEN`, which is an argument of the type of words and of
states, and `OPERAND_SOURCE`, whose only conformant value is `typed` (D4), so that an argument for it would carry
nothing. A domain is given by its reduction: the map that takes an exact integer to the value that is kept. -/
structure Params where
  /-- `OPC`: the opcode table (30_encoding.md R70 to R74, decisions D2 and D3) -/
  opc : Tag → BitVec 7
  /-- `ALU_OR_MODE` (41_alu_register.md R134, decision D5) -/
  aluOrMode : AluOrMode
  /-- `MNEMONIC_ALIASES` (30_encoding.md R86, decision D6) -/
  aliases : List (List Char × Tag)
  /-- `PC_DOMAIN`, by its reduction of a next `pc` (10_state.md R23, decision D12) -/
  pcDomain : Int → Int
  /-- `IMM_DOMAIN`, by its reduction of a typed immediate or offset (30_encoding.md R84, decision D20) -/
  immDomain : Int → Int
  /-- `PROG_MAX_LEN`, none where there is no bound (10_state.md R26, decision D23) -/
  progMaxLen : Option Nat

/-- `controlSignals` after a reset: unspecified (R221, decision D14), so a free value (log entry 2). -/
opaque Config.resetSignals : ControlSignals

/-- `aluResult` after a reset: unspecified (R221, decision D14), so a free value (log entry 2). -/
opaque Config.resetAluResult (xlen : Nat) : Word xlen

/-- `currentInstructionIndex` after a reset: unspecified (R221, decision D14), so a free value (log entry 2). -/
opaque Config.resetInstructionIndex : Int

/-- `MICRO_STEPS` of R4: display counts with no architectural effect (70_reset_and_hazards.md R231). No rule and no
definition of this model reads them. -/
def Config.microSteps : Stage → Nat
  | .fetch => 3
  | .decode => 4
  | .execute => 3
  | .writeBack => 3

end Sys2Proof
end

