-- ==== Sys2Proof/WellFormed.lean ====
section
/-! DEFINITION. Well-formedness (spec/10_state.md R27 (i) and (iii)). Part (ii), `binary = encode(record)`, and the
conjunction of the three stand in Decode.lean after the encoder. -/

namespace Sys2Proof

/-- A register index of R27 (iii): in `[0, 7]`. -/
def regIndexOk (n : Nat) : Bool := decide (n < Config.nreg)

/-- An optional register index is unset or in `[0, 7]`. -/
def regFieldOk : Option Nat → Bool
  | none => true
  | some n => regIndexOk n

/-- The operand layout of a tag: the "fields set" column of 30_encoding.md R80. -/
def Tag.layout : Tag → Layout
  | .add | .sub | .and | .or => ⟨true, true, true, false, false⟩
  | .addi => ⟨true, true, false, true, false⟩
  | .ldi | .mov => ⟨true, false, false, true, false⟩
  | .load => ⟨true, true, false, false, false⟩
  | .store => ⟨false, true, true, false, false⟩
  | .brz => ⟨false, true, false, false, true⟩
  | .jmp => ⟨false, true, false, false, false⟩
  | .nop | .unknown _ => ⟨false, false, false, false, false⟩

/-- The set-ness pattern of a record. -/
def Record.layout (r : Record) : Layout :=
  ⟨r.dest.isSome, r.src1.isSome, r.src2.isSome, r.immediate.isSome, r.address.isSome⟩

/-- R27 (i): the set-ness pattern is the one of the tag. -/
def Record.layoutOk (r : Record) : Bool := r.layout == r.opcode.layout

/-- R27 (iii): every set register index is in `[0, 7]`. -/
def Record.indicesOk (r : Record) : Bool := regFieldOk r.dest && regFieldOk r.src1 && regFieldOk r.src2

/-- An instruction is well-formed when its register indices are in `[0, 7]` (R27 (iii)); its constructor fixes (i). -/
def Instr.wellFormed : Instr → Bool
  | .add d a b => regIndexOk d && regIndexOk a && regIndexOk b
  | .sub d a b => regIndexOk d && regIndexOk a && regIndexOk b
  | .and d a b => regIndexOk d && regIndexOk a && regIndexOk b
  | .or d a b => regIndexOk d && regIndexOk a && regIndexOk b
  | .addi d a _ => regIndexOk d && regIndexOk a
  | .ldi d _ => regIndexOk d
  | .mov d _ => regIndexOk d
  | .load d a => regIndexOk d && regIndexOk a
  | .store a b => regIndexOk a && regIndexOk b
  | .brz a _ => regIndexOk a
  | .jmp a => regIndexOk a
  | .nop => true
  | .unknown _ => true

end Sys2Proof
end

