-- ==== Sys2Proof/Decode.lean ====
section
/-! DEFINITION. The opcode table, the read-back decoder and the instruction encoder (spec/30_encoding.md).
No stage of the hardware decodes a tag from a word (R67): the decoder is the spec's read-back "for a disassembler, a
display, or the decoder of opcode_table.json". DECODE's control signals stand in Machine/Flags.lean. -/

namespace Sys2Proof

/-- Parameter `OPC` at its defaults (30_encoding.md R70 to R73). ADD's pattern and the unrecognised pattern are the
source's; NOP's is decision D3; the others are PRESUMED by the spec from general knowledge (D2; log entry 6). -/
def opc : Tag → BitVec 7
  | .add => 0b0000010#7
  | .sub => 0b0000101#7
  | .and => 0b0001000#7
  | .or => 0b0001001#7
  | .addi => 0b1000010#7
  | .ldi => 0b1001100#7
  | .mov => 0b1001100#7
  | .load => 0b0010000#7
  | .store => 0b0100000#7
  | .brz => 0b1100000#7
  | .jmp => 0b1110000#7
  | .nop => 0b0000000#7
  | .unknown _ => 0b0000000#7

/-- Bits 15, 14, 13 of the word are bits 6, 5, 4 of the opcode field: `(b15, b14, b13) = (p, q, r)`. -/
def topBitsAre (field : BitVec 7) (p q r : Bool) : Prop :=
  field.getLsbD 6 = p ∧ field.getLsbD 5 = q ∧ field.getLsbD 4 = r

/-- What the source forces on `OPC` (30_encoding.md R70 to R72 and the table of R74): a table that meets this gives
the same registers, data memory and `pc`. -/
def OpcAdmissible (o : Tag → BitVec 7) : Prop :=
  o .add = 0b0000010#7 ∧
  ((o .ldi).getLsbD 5 = false ∧ (o .ldi).getLsbD 4 = false) ∧
  o .mov = o .ldi ∧
  ((o .load).getLsbD 5 = false ∧ (o .load).getLsbD 4 = true) ∧
  ((o .store).getLsbD 6 = false ∧ (o .store).getLsbD 5 = true) ∧
  topBitsAre (o .brz) true true false ∧
  topBitsAre (o .jmp) true true true ∧
  ((o .sub).getLsbD 5 = false ∧ (o .sub).getLsbD 4 = false) ∧
  ((o .and).getLsbD 5 = false ∧ (o .and).getLsbD 4 = false) ∧
  ((o .or).getLsbD 5 = false ∧ (o .or).getLsbD 4 = false) ∧
  ((o .addi).getLsbD 5 = false ∧ (o .addi).getLsbD 4 = false) ∧
  (o .nop).getLsbD 5 = false ∧
  ∀ text, o (.unknown text) = 0b0000000#7

/-! ### Fields of a word (R60, R67) -/

/-- The opcode field `binary[15:9]`. -/
def opcodeField (w : BitVec 16) : BitVec 7 := w.extractLsb' 9 7

/-- The dest field `binary[8:6]`. -/
def destField (w : BitVec 16) : BitVec 3 := w.extractLsb' 6 3

/-- The src1 field `binary[5:3]`. -/
def src1Field (w : BitVec 16) : BitVec 3 := w.extractLsb' 3 3

/-- The third field `binary[2:0]`. -/
def thirdField (w : BitVec 16) : BitVec 3 := w.extractLsb' 0 3

/-! ### Reading an instruction back from a word (R67) -/

/-- Why a word reads back as no instruction: its opcode field is none of the patterns of R73 (R76). -/
inductive DecodeError where
  | unassignedOpcode (field : BitVec 7)
  deriving DecidableEq, Repr

/-- What the decoder answers. -/
inductive Decoded where
  | instr (i : Instr)
  | rejected (reason : DecodeError)
  deriving DecidableEq, Repr

/-- The tags a word can read back as: MOV shares LDI's pattern and an unrecognised mnemonic NOP's, and such a word
reads back as LDI and as NOP (R67). -/
def readableTags : List Tag :=
  [.add, .sub, .and, .or, .addi, .ldi, .load, .store, .brz, .jmp, .nop]

/-- The tag of an opcode field under an opcode table. -/
def tagOfField (field : BitVec 7) (o : Tag → BitVec 7 := opc) : Option Tag :=
  readableTags.find? fun t => o t == field

/-- The instruction of a tag with the operand fields `d`, `a`, `k` of a word, each read unsigned (R67). -/
def instrOfFields (t : Tag) (d a k : Nat) : Instr :=
  match t with
  | .add => .add d a k
  | .sub => .sub d a k
  | .and => .and d a k
  | .or => .or d a k
  | .addi => .addi d a k
  | .ldi => .ldi d k
  | .mov => .mov d k
  | .load => .load d a
  | .store => .store a k
  | .brz => .brz a k
  | .jmp => .jmp a
  | .nop => .nop
  | .unknown text => .unknown text

/-- The decoder under an opcode table, total on all `2^16` words. It matches the 7-bit opcode field only (R67). -/
def decode (w : BitVec 16) (o : Tag → BitVec 7 := opc) : Decoded :=
  match tagOfField (opcodeField w) o with
  | some t => .instr (instrOfFields t (destField w).toNat (src1Field w).toNat (thirdField w).toNat)
  | none => .rejected (.unassignedOpcode (opcodeField w))

/-- The instruction the decoder reads from a row's word. Every instruction is one 16-bit word (R60), numbered as the
table numbers it (R7); there is no other length (R62), so a row of another width, or a number that 16 bits do not hold,
is no instruction. -/
def decodeTableWord (nbits w : Nat) : Option Instr :=
  if nbits = 16 ∧ w < 2 ^ 16 then
    match decode (BitVec.ofNat 16 w) with
    | .instr i => some i
    | .rejected _ => none
  else none

/-! ### The encoder (R60 to R65) -/

/-- `field(v) = bits3((v mod 2^32) mod 8)` (R63). -/
def field3 (v : Int) : BitVec 3 := BitVec.ofInt 3 (v % 2 ^ 32)

/-- A register field: `000` when unset (R63). -/
def regField : Option Nat → BitVec 3
  | none => 0#3
  | some n => field3 n

/-- An immediate or offset field: `000` when unset (R63). -/
def intField : Option Int → BitVec 3
  | none => 0#3
  | some k => field3 k

/-- The third field: `src2` if set, else `immediate` if set, else `address` (R64, R65). -/
def thirdOf (r : Record) : BitVec 3 :=
  match r.src2, r.immediate with
  | some n, _ => regField (some n)
  | none, some k => intField (some k)
  | none, none => intField r.address

/-- `encode(r) = OPC[r.opcode] ++ f(r.dest) ++ f(r.src1) ++ f(third(r))` for an opcode table `o` (R65). -/
def encodeRecordWith (o : Tag → BitVec 7) (r : Record) : BitVec 16 :=
  o r.opcode ++ regField r.dest ++ regField r.src1 ++ thirdOf r

/-- The encoder of records under the default opcode table. -/
def encodeRecord (r : Record) : BitVec 16 := encodeRecordWith opc r

/-- The record of an instruction less its `binary`: the fields its operand layout sets (R80). -/
def Instr.fields : Instr → Record
  | .add d a b => ⟨.add, some d, some a, some b, none, none, 0#16⟩
  | .sub d a b => ⟨.sub, some d, some a, some b, none, none, 0#16⟩
  | .and d a b => ⟨.and, some d, some a, some b, none, none, 0#16⟩
  | .or d a b => ⟨.or, some d, some a, some b, none, none, 0#16⟩
  | .addi d a k => ⟨.addi, some d, some a, none, some k, none, 0#16⟩
  | .ldi d k => ⟨.ldi, some d, none, none, some k, none, 0#16⟩
  | .mov d k => ⟨.mov, some d, none, none, some k, none, 0#16⟩
  | .load d a => ⟨.load, some d, some a, none, none, none, 0#16⟩
  | .store a b => ⟨.store, none, some a, some b, none, none, 0#16⟩
  | .brz a k => ⟨.brz, none, some a, none, none, some k, 0#16⟩
  | .jmp a => ⟨.jmp, none, some a, none, none, none, 0#16⟩
  | .nop => ⟨.nop, none, none, none, none, none, 0#16⟩
  | .unknown text => ⟨.unknown text, none, none, none, none, none, 0#16⟩

/-- The record the assembler makes of an instruction, for an opcode table `o`. -/
def Instr.recordWith (o : Tag → BitVec 7) (i : Instr) : Record :=
  { i.fields with binary := encodeRecordWith o i.fields }

/-- The record the assembler makes of an instruction: `binary = encode(record)` (R27 (ii)). -/
def Instr.record (i : Instr) : Record := i.recordWith opc

/-- The word of an instruction. -/
def encode (i : Instr) : BitVec 16 := encodeRecord i.fields

/-! ### Well-formed records (10_state.md R27) -/

/-- R27 (ii): `binary = encode(record)`, under an opcode table. -/
def Record.binaryOk (r : Record) (o : Tag → BitVec 7 := opc) : Bool := r.binary == encodeRecordWith o r

/-- R27: a record is well-formed when (i), (ii) and (iii) hold, (ii) under an opcode table. -/
def Record.wellFormed (r : Record) (o : Tag → BitVec 7 := opc) : Bool := r.layoutOk && r.binaryOk o && r.indicesOk

/-- The instruction of a record's tag with its set fields. -/
def Record.toInstr (r : Record) : Instr :=
  match r.opcode with
  | .add => .add (r.dest.getD 0) (r.src1.getD 0) (r.src2.getD 0)
  | .sub => .sub (r.dest.getD 0) (r.src1.getD 0) (r.src2.getD 0)
  | .and => .and (r.dest.getD 0) (r.src1.getD 0) (r.src2.getD 0)
  | .or => .or (r.dest.getD 0) (r.src1.getD 0) (r.src2.getD 0)
  | .addi => .addi (r.dest.getD 0) (r.src1.getD 0) (r.immediate.getD 0)
  | .ldi => .ldi (r.dest.getD 0) (r.immediate.getD 0)
  | .mov => .mov (r.dest.getD 0) (r.immediate.getD 0)
  | .load => .load (r.dest.getD 0) (r.src1.getD 0)
  | .store => .store (r.src1.getD 0) (r.src2.getD 0)
  | .brz => .brz (r.src1.getD 0) (r.address.getD 0)
  | .jmp => .jmp (r.src1.getD 0)
  | .nop => .nop
  | .unknown text => .unknown text

/-- The instruction of a well-formed record; none for a record that is not well-formed (60_exceptions.md R205). -/
def Record.instr? (r : Record) (o : Tag → BitVec 7 := opc) : Option Instr := if r.wellFormed o then some r.toInstr else none

/-! ### What is lost between an instruction and its word (R66, R67) -/

/-- `a mod 8` of an integer operand. -/
def mod8 (k : Int) : Int := k % 8

/-- What the word of an instruction reads back as: every operand modulo 8, MOV as LDI, an unrecognised mnemonic as
NOP (R66, R67). -/
def Instr.readBack : Instr → Instr
  | .add d a b => .add (d % 8) (a % 8) (b % 8)
  | .sub d a b => .sub (d % 8) (a % 8) (b % 8)
  | .and d a b => .and (d % 8) (a % 8) (b % 8)
  | .or d a b => .or (d % 8) (a % 8) (b % 8)
  | .addi d a k => .addi (d % 8) (a % 8) (mod8 k)
  | .ldi d k => .ldi (d % 8) (mod8 k)
  | .mov d k => .ldi (d % 8) (mod8 k)
  | .load d a => .load (d % 8) (a % 8)
  | .store a b => .store (a % 8) (b % 8)
  | .brz a k => .brz (a % 8) (mod8 k)
  | .jmp a => .jmp (a % 8)
  | .nop => .nop
  | .unknown _ => .nop

/-- The instructions a word can carry whole: register indices in `[0, 7]`, `immediate` and `address` in `[0, 7]`, and
not MOV or an unrecognised mnemonic (R66). -/
def Instr.fitsWord : Instr → Bool
  | .addi d a k => regIndexOk d && regIndexOk a && decide (0 ≤ k ∧ k < 8)
  | .ldi d k => regIndexOk d && decide (0 ≤ k ∧ k < 8)
  | .brz a k => regIndexOk a && decide (0 ≤ k ∧ k < 8)
  | .mov _ _ => false
  | .unknown _ => false
  | .add d a b => Instr.wellFormed (.add d a b)
  | .sub d a b => Instr.wellFormed (.sub d a b)
  | .and d a b => Instr.wellFormed (.and d a b)
  | .or d a b => Instr.wellFormed (.or d a b)
  | .load d a => Instr.wellFormed (.load d a)
  | .store a b => Instr.wellFormed (.store a b)
  | .jmp a => Instr.wellFormed (.jmp a)
  | .nop => true

end Sys2Proof
end

