-- ==== Sys2Proof/Machine/State.lean ====
section
/-! DEFINITION. The CPU state of spec/10_state.md (R20 to R32), the reasons a step can stop, and the state after
reset. -/

namespace Sys2Proof.Machine

/-- Why the machine stops as gone wrong. -/
inductive Fault where
  /-- A FETCH with `pc < 0`, raised by `stageStep` and `step` (60_exceptions.md R206, decision D11). Safe: a claim about
  a run that reaches it has no proof. -/
  | negativePc
  deriving DecidableEq, Repr

/-- Why the model gives no meaning. -/
inductive Refusal where
  /-- An instruction without a meaning yet, raised by `exec`'s arm. Safe. No arm raises it. -/
  | notModelled (mnemonic : String)
  /-- A record that is not well-formed: raised by `load`, by the stages that read the record, by `step`, and by a
  meaning whose destination index exceeds 7 (60_exceptions.md R205, 30_encoding.md R83, decision D10). Safe. -/
  | illFormedRecord
  /-- A state in DECODE, EXECUTE or WRITE_BACK whose `currentInstructionIndex` names no record, raised by `stageStep`;
  no run reaches it (40_stage_machine.md R121; log entry 5). Safe. -/
  | noActiveRecord
  /-- A program longer than parameter `PROG_MAX_LEN`, raised by `load` where that parameter sets a bound; at its default,
  no bound, nothing raises it (10_state.md R26, decision D23; log entry 4). Safe. -/
  | programTooLong
  deriving DecidableEq, Repr

/-- The data memory: the keys that exist with their cells (10_state.md R25). Keys are strictly rising, so equal maps
are equal lists. An unlisted key does not exist; a listed key may hold 0, which the snapshot tells from absence
(R25, R188; log entry 3). -/
abbrev Memory (xlen : Nat := Config.xlen) := List (Nat × Word xlen)

/-- The CPU state for a width `XLEN`: the record `CpuState` of 10_state.md, nothing else (R35). Where no width is
written, `State` is the state at the default width. -/
structure State (xlen : Nat := Config.xlen) where
  /-- `x[0]` to `x[7]` (R20) -/
  registers : Vector (Word xlen) Config.nreg
  /-- the program counter: an index of instruction records, any integer (R22, R23) -/
  pc : Int
  /-- the data memory (R25) -/
  dataMemory : Memory xlen
  /-- the instruction memory (R26) -/
  instructionMemory : List Record
  /-- the stage the next stage step performs (R28) -/
  currentStage : Stage
  /-- working register of DECODE (R29) -/
  controlSignals : ControlSignals
  /-- working register of EXECUTE (R30) -/
  aluResult : Word xlen
  /-- working register of FETCH (R31) -/
  currentInstructionIndex : Int
  deriving DecidableEq, Repr

/-- What a step answers. -/
abbrev Result (xlen : Nat := Config.xlen) := Host.Outcome (State xlen) Fault Refusal

/-- The state at simulator start: the reset state with an empty instruction memory (10_state.md R37,
46_driver_interface.md R191). The three working registers hold free values of Config (R221; log entry 2). -/
def State.reset : State where
  registers := Vector.replicate Config.nreg 0
  pc := 0
  dataMemory := []
  instructionMemory := []
  currentStage := .fetch
  controlSignals := Config.resetSignals
  aluResult := Config.resetAluResult Config.xlen
  currentInstructionIndex := Config.resetInstructionIndex

end Sys2Proof.Machine
end

