-- ==== Sys2Proof/Machine/Flags.lean ====
section
/-! DEFINITION. The hardware has no status flags (spec/10_state.md R24). In their place: the control-signal decoder
(spec/40_stage_machine.md R105 to R107) and the zero test of BRZ (R116, spec/44_control_transfer.md R161). -/

namespace Sys2Proof.Machine

/-- The control signals of a word: a pure function of its bits 15, 14, 13 and 9 (R107). -/
def signals (b : BitVec 16) : ControlSignals where
  PL := b.getLsbD 15 && b.getLsbD 14
  JB := b.getLsbD 13
  MB := b.getLsbD 15
  MD := b.getLsbD 13
  MW := b.getLsbD 14 && !b.getLsbD 15
  RW := !b.getLsbD 14
  BC := b.getLsbD 9

/-- The fixed zero-test of the branch, on the whole value (R116, R135); `BC` is not consulted (R109). -/
def isZero {xlen : Nat} (v : Word xlen) : Bool := v == 0

end Sys2Proof.Machine
end

