-- ==== Sys2Proof/Machine/Defaults.lean ====
section
/-! DEFINITION. The defaults of the open parameters (spec/00_scope.md R4). Every definition that depends on a parameter
takes it as an argument, and these values where none is written. -/

namespace Sys2Proof.Machine

/-- `ALU_OR_MODE` at its default (41_alu_register.md R134, decision D5; log entry 7). -/
def aluOrMode : AluOrMode := .tableLiteral

/-- `MNEMONIC_ALIASES` at its default: `LD` is LOAD, `ST` is STORE (30_encoding.md R86, decision D6; log entry 13). -/
def mnemonicAliases : List (List Char × Tag) :=
  [(['L', 'D'], .load), (['S', 'T'], .store)]

/-- The open parameters at their defaults: `PC_DOMAIN` and `IMM_DOMAIN` the integers without wrap (D12, D20),
`PROG_MAX_LEN` no bound (D23) (log entry 4). -/
def defaultParams : Params where
  opc := opc
  aluOrMode := aluOrMode
  aliases := mnemonicAliases
  pcDomain := id
  immDomain := id
  progMaxLen := none

end Sys2Proof.Machine
end

