-- ==== Sys2Proof/Machine/Operands.lean ====
section
/-! DEFINITION. Operand reads (spec/00_scope.md R9, R10) and the ALU's operations (spec/40_stage_machine.md R110,
spec/41_alu_register.md R131 to R135). -/

namespace Sys2Proof.Machine

variable {xlen : Nat}

/-- `rd(f)`: 0 for an unset field and for an index outside `[0, 7]` (R9, R111). -/
def State.rd (s : State xlen) : Option Nat → Word xlen
  | none => 0
  | some n => (s.registers[n]?).getD 0

/-- `val(f)` of `immediate` and `address`: 0 when unset (R9, decision D17). -/
def valueOf : Option Int → Int
  | none => 0
  | some k => k

/-- ADD: the exact sum, wrapped (R131). -/
def aluAdd (a b : Word xlen) : Word xlen := wrap (a.toNat + b.toNat)

/-- SUB: first source minus second source, wrapped to an unsigned residue (R132). -/
def aluSub (a b : Word xlen) : Word xlen := wrap ((a.toNat : Int) - b.toNat)

/-- AND: bitwise (R133). -/
def aluAnd (a b : Word xlen) : Word xlen := a &&& b

/-- OR in a mode of `ALU_OR_MODE`: 0 read literally from the source's table, or bitwise (R134). -/
def aluOr : AluOrMode → Word xlen → Word xlen → Word xlen
  | .tableLiteral, _, _ => 0
  | .bitwiseOr, a, b => a ||| b

/-- ADDI: the exact sum with the full typed immediate, wrapped (42_immediate.md R140). -/
def aluAddImmediate (a : Word xlen) (k : Int) : Word xlen := wrap (a.toNat + k)

/-- LDI and MOV: the full typed immediate, wrapped (R141, R142). -/
def aluImmediate (k : Int) : Word xlen := wrap k

/-- EXECUTE's value for a record, selected by the opcode tag, in an OR mode (R110). -/
def aluOf (r : Record) (s : State xlen) (mode : AluOrMode := aluOrMode) : Word xlen :=
  match r.opcode with
  | .add => aluAdd (s.rd r.src1) (s.rd r.src2)
  | .sub => aluSub (s.rd r.src1) (s.rd r.src2)
  | .addi => aluAddImmediate (s.rd r.src1) (valueOf r.immediate)
  | .ldi => aluImmediate (valueOf r.immediate)
  | .mov => aluImmediate (valueOf r.immediate)
  | .and => aluAnd (s.rd r.src1) (s.rd r.src2)
  | .or => aluOr mode (s.rd r.src1) (s.rd r.src2)
  | .load => s.rd r.src1
  | .store => s.rd r.src1
  | .brz => s.rd r.src1
  | .jmp => 0
  | .nop => 0
  | .unknown _ => 0

end Sys2Proof.Machine
end

