-- ==== Sys2Proof/Machine/Ops.lean ====
section
/-! DEFINITION. The shared operations: the data memory (spec/20_memory.md), the register write port, the PC mux, the
four stages as functions of the active record (spec/40_stage_machine.md R103 to R118), and one whole instruction
(R120). There is no operation that takes an exception and none that returns from one: the hardware has no exception,
no trap entry and no trap return (spec/60_exceptions.md R200, R203, R204). -/

namespace Sys2Proof.Machine

variable {xlen : Nat}

/-! ### Data memory -/

/-- The cell at a key, or none where the key does not exist (R25). -/
def Memory.cell : Memory xlen → Nat → Option (Word xlen)
  | [], _ => none
  | (k, v) :: m, a => if k = a then some v else Memory.cell m a

/-- Write one cell, creating the key if absent; the keys stay strictly rising (R47). -/
def Memory.put : Memory xlen → Nat → Word xlen → Memory xlen
  | [], a, v => [(a, v)]
  | (k, w) :: m, a, v =>
    if a < k then (a, v) :: (k, w) :: m
    else if k = a then (a, v) :: m
    else (k, w) :: Memory.put m a v

/-- Every key of the map exceeds `lo`, rises strictly and names a cell below `2^XLEN` (R42). -/
def Memory.risesAbove : Option Nat → Memory xlen → Bool
  | _, [] => true
  | none, (k, _) :: m => decide (k < 2 ^ xlen) && Memory.risesAbove (some k) m
  | some lo, (k, _) :: m => decide (lo < k) && decide (k < 2 ^ xlen) && Memory.risesAbove (some k) m

/-- The canonical form of a data memory: keys strictly rising, each below `2^XLEN`. -/
def Memory.wf (m : Memory xlen) : Bool := Memory.risesAbove none m

/-- `MemRead(addr, 1)`: 0 where the key is absent; creates no key (R10, R47). -/
def State.memRead (s : State xlen) (addr : Word xlen) : Word xlen := (Memory.cell s.dataMemory addr.toNat).getD 0

/-- `MemWrite(addr, 1, v)` (R10, R47). -/
def State.memWrite (s : State xlen) (addr v : Word xlen) : State xlen :=
  { s with dataMemory := Memory.put s.dataMemory addr.toNat v }

/-! ### Register write port -/

/-- `x[d] <- v` (R10). No register is hardwired (10_state.md R20). -/
def State.setReg (s : State xlen) (d : Nat) (v : Word xlen) : State xlen :=
  { s with registers := s.registers.setIfInBounds d v }

/-- Write a register: nothing when `dest` is unset (R114). A write to an index above 7 is given no meaning by the spec
and is refused (30_encoding.md R83). -/
def State.writeDest (s : State xlen) (dest : Option Nat) (v : Word xlen) : Result xlen :=
  match dest with
  | none => .next s
  | some d => if d < Config.nreg then .next (s.setReg d v) else .refused .illFormedRecord

/-! ### The stages (R103 to R118), `r` being the active record -/

/-- FETCH inside the program (R103). -/
def State.fetched (s : State xlen) : State xlen :=
  { s with currentInstructionIndex := s.pc, currentStage := .decode }

/-- DECODE (R105). -/
def State.decoded (s : State xlen) (r : Record) : State xlen :=
  { s with controlSignals := signals r.binary, currentStage := .execute }

/-- EXECUTE with the ALU's value (R110). -/
def State.executed (s : State xlen) (value : Word xlen) : State xlen :=
  { s with aluResult := value, currentStage := .writeBack }

/-- WRITE_BACK step 1: the memory write (R113). -/
def State.storeStep (s : State xlen) (r : Record) : State xlen :=
  if s.controlSignals.MW then s.memWrite s.aluResult (s.rd r.src2) else s

/-- The write-back mux (R115). -/
def State.writeData (s : State xlen) : Word xlen :=
  if s.controlSignals.MD then s.memRead s.aluResult else s.aluResult

/-- WRITE_BACK step 2: the register write (R114). -/
def State.registerStep (s : State xlen) (r : Record) : Result xlen :=
  if s.controlSignals.RW then s.writeDest r.dest s.writeData else .next s

/-- The PC mux (R116). -/
def State.nextPc (s : State xlen) (r : Record) : Int :=
  if s.controlSignals.PL then
    if s.controlSignals.JB then (s.rd r.src1).toNat
    else if isZero s.aluResult then s.pc + valueOf r.address
    else s.pc + 1
  else s.pc + 1

/-- WRITE_BACK steps 3 and 4: the `pc` write, in the domain of `pc`, and the stage reset (R116, R117, 10_state.md
R23). -/
def State.pcStep (s : State xlen) (r : Record) (p : Params := defaultParams) : State xlen :=
  { s with pc := p.pcDomain (s.nextPc r), currentStage := .fetch }

/-- WRITE_BACK: steps 1 to 4 in order (R112, R118). -/
def State.writeBack (s : State xlen) (r : Record) (p : Params := defaultParams) : Result xlen :=
  match (s.storeStep r).registerStep r with
  | .next s' => .next (s'.pcStep r p)
  | .fault f => .fault f
  | .refused q => .refused q

/-! ### One whole instruction (R120) -/

/-- The effect of one whole instruction whose record is `r` and whose EXECUTE value is `value`: FETCH, DECODE, EXECUTE
and WRITE_BACK in a row (R120). -/
def runInstruction (r : Record) (value : Word xlen) (s : State xlen) (p : Params := defaultParams) : Result xlen :=
  ((s.fetched.decoded r).executed value).writeBack r p

end Sys2Proof.Machine
end

