-- ==== Sys2Proof/Machine/AluRegister.lean ====
section
/-! DEFINITION. The register-register ALU instructions ADD, SUB, AND, OR (spec/41_alu_register.md). -/

namespace Sys2Proof.Machine

variable {xlen : Nat}

/-- ADD (R131). -/
def execAdd (dest src1 src2 : Nat) (s : State xlen) (p : Params := defaultParams) : Result xlen :=
  runInstruction ((Instr.add dest src1 src2).recordWith p.opc) (aluAdd (s.rd (some src1)) (s.rd (some src2))) s p

/-- SUB (R132). -/
def execSub (dest src1 src2 : Nat) (s : State xlen) (p : Params := defaultParams) : Result xlen :=
  runInstruction ((Instr.sub dest src1 src2).recordWith p.opc) (aluSub (s.rd (some src1)) (s.rd (some src2))) s p

/-- AND (R133). -/
def execAnd (dest src1 src2 : Nat) (s : State xlen) (p : Params := defaultParams) : Result xlen :=
  runInstruction ((Instr.and dest src1 src2).recordWith p.opc) (aluAnd (s.rd (some src1)) (s.rd (some src2))) s p

/-- OR in the `ALU_OR_MODE` given (R134). -/
def execOr (dest src1 src2 : Nat) (s : State xlen) (p : Params := defaultParams) : Result xlen :=
  runInstruction ((Instr.or dest src1 src2).recordWith p.opc)
    (aluOr p.aluOrMode (s.rd (some src1)) (s.rd (some src2))) s p

end Sys2Proof.Machine
end

