-- ==== Sys2Proof/Machine/ControlTransfer.lean ====
section
/-! DEFINITION. The control transfers BRZ and JMP (spec/44_control_transfer.md). -/

namespace Sys2Proof.Machine

variable {xlen : Nat}

/-- BRZ: the ALU passes the tested register; the PC mux adds the full typed offset to this instruction's own index when
it is zero (R161). -/
def execBrz (src1 : Nat) (address : Int) (s : State xlen) (p : Params := defaultParams) : Result xlen :=
  runInstruction ((Instr.brz src1 address).recordWith p.opc) (s.rd (some src1)) s p

/-- JMP: absolute, through a register; its ALU value is the table's "other" (R162). -/
def execJmp (src1 : Nat) (s : State xlen) (p : Params := defaultParams) : Result xlen :=
  runInstruction ((Instr.jmp src1).recordWith p.opc) 0 s p

end Sys2Proof.Machine
end

