-- ==== Sys2Proof/Machine/Immediate.lean ====
section
/-! DEFINITION. The immediate instructions ADDI, LDI, MOV (spec/42_immediate.md). -/

namespace Sys2Proof.Machine

variable {xlen : Nat}

/-- ADDI (R140). -/
def execAddi (dest src1 : Nat) (immediate : Int) (s : State xlen) (p : Params := defaultParams) : Result xlen :=
  runInstruction ((Instr.addi dest src1 immediate).recordWith p.opc) (aluAddImmediate (s.rd (some src1)) immediate) s p

/-- LDI (R141). -/
def execLdi (dest : Nat) (immediate : Int) (s : State xlen) (p : Params := defaultParams) : Result xlen :=
  runInstruction ((Instr.ldi dest immediate).recordWith p.opc) (aluImmediate immediate) s p

/-- MOV: loads its immediate; it moves no register (R142). -/
def execMov (dest : Nat) (immediate : Int) (s : State xlen) (p : Params := defaultParams) : Result xlen :=
  runInstruction ((Instr.mov dest immediate).recordWith p.opc) (aluImmediate immediate) s p

end Sys2Proof.Machine
end

