-- ==== Sys2Proof/Machine/LoadStore.lean ====
section
/-! DEFINITION. The memory instructions LOAD and STORE (spec/43_load_store.md). -/

namespace Sys2Proof.Machine

variable {xlen : Nat}

/-- The effective address: the whole value of the register named by `src1` (R152). -/
def effectiveAddress (s : State xlen) (src1 : Nat) : Word xlen := s.rd (some src1)

/-- LOAD (R150). -/
def execLoad (dest src1 : Nat) (s : State xlen) (p : Params := defaultParams) : Result xlen :=
  runInstruction ((Instr.load dest src1).recordWith p.opc) (effectiveAddress s src1) s p

/-- STORE: address register first, data register second (R151). -/
def execStore (src1 src2 : Nat) (s : State xlen) (p : Params := defaultParams) : Result xlen :=
  runInstruction ((Instr.store src1 src2).recordWith p.opc) (effectiveAddress s src1) s p

end Sys2Proof.Machine
end

