-- ==== Sys2Proof/Machine/Nop.lean ====
section
/-! DEFINITION. NOP and unrecognised mnemonics (spec/45_nop_unrecognized.md). -/

namespace Sys2Proof.Machine

variable {xlen : Nat}

/-- NOP: `RW = 1`, but the unset `dest` is not written (R170, R172). -/
def execNop (s : State xlen) (p : Params := defaultParams) : Result xlen :=
  runInstruction (Instr.nop.recordWith p.opc) 0 s p

/-- An unrecognised mnemonic, whatever its text (R171). -/
def execUnknown (text : List Char) (s : State xlen) (p : Params := defaultParams) : Result xlen :=
  runInstruction ((Instr.unknown text).recordWith p.opc) 0 s p

end Sys2Proof.Machine
end

