-- ==== Sys2Proof/Machine/Dispatch.lean ====
section
/-! DEFINITION. The meaning of every instruction: one whole FETCH-to-WRITE_BACK round (spec/40_stage_machine.md R120). -/

namespace Sys2Proof.Machine
open Host

def exec (i : Instr) (s : State) : Host.Outcome State Fault Refusal :=
  match i with
  | .add dest src1 src2 => Sys2Proof.Machine.execAdd dest src1 src2 s
  | .sub dest src1 src2 => Sys2Proof.Machine.execSub dest src1 src2 s
  | .and dest src1 src2 => Sys2Proof.Machine.execAnd dest src1 src2 s
  | .or dest src1 src2 => Sys2Proof.Machine.execOr dest src1 src2 s
  | .addi dest src1 immediate => Sys2Proof.Machine.execAddi dest src1 immediate s
  | .ldi dest immediate => Sys2Proof.Machine.execLdi dest immediate s
  | .mov dest immediate => Sys2Proof.Machine.execMov dest immediate s
  | .load dest src1 => Sys2Proof.Machine.execLoad dest src1 s
  | .store src1 src2 => Sys2Proof.Machine.execStore src1 src2 s
  | .brz src1 address => Sys2Proof.Machine.execBrz src1 address s
  | .jmp src1 => Sys2Proof.Machine.execJmp src1 s
  | .nop => Sys2Proof.Machine.execNop s
  | .unknown text => Sys2Proof.Machine.execUnknown text s

end Sys2Proof.Machine
end

