-- ==== Sys2Proof/Machine/StageMachine.lean ====
section
/-! DEFINITION. The four-stage machine (spec/40_stage_machine.md R100 to R119) with `stageStep`, the spec's `step()`
operation, and the step over one whole instruction (R120), which `Machine.step` calls. -/

namespace Sys2Proof.Machine

variable {xlen : Nat}

/-- `IM[k]`, where `0 ≤ k < len(IM)` (spec/20_memory.md R41). -/
def recordAt (im : List Record) (k : Int) : Option Record := if 0 ≤ k then im[k.toNat]? else none

/-- The current instruction record `IM[currentInstructionIndex]` (40_stage_machine.md, its opening). -/
def State.activeRecord (s : State xlen) : Option Record := recordAt s.instructionMemory s.currentInstructionIndex

/-- Act on the active record. A record that is not well-formed under the opcode table is refused (60_exceptions.md
R205); an index that names no record is refused under its own name (R121; log entry 5). -/
def State.onActive (s : State xlen) (act : Record → Result xlen) (o : Tag → BitVec 7 := opc) : Result xlen :=
  match s.activeRecord with
  | none => .refused .noActiveRecord
  | some r => if r.wellFormed o then act r else .refused .illFormedRecord

/-- The halt condition: a FETCH with `pc ≥ len(IM)`; a predicate, not stored (R104, 46_driver_interface.md R187). -/
def State.isHalted (s : State xlen) : Bool :=
  s.currentStage == .fetch && decide ((s.instructionMemory.length : Int) ≤ s.pc)

/-- FETCH (R103, R104, R206). It reads no record. -/
def State.fetchStep (s : State xlen) : Result xlen :=
  if s.pc < 0 then .fault .negativePc
  else if s.pc < s.instructionMemory.length then .next s.fetched
  else .next s

/-- One stage step: the transition of the stage named by `currentStage` and no other (R101). -/
def stageStep (s : State xlen) (p : Params := defaultParams) : Result xlen :=
  match s.currentStage with
  | .fetch => s.fetchStep
  | .decode => s.onActive (fun r => .next (s.decoded r)) p.opc
  | .execute => s.onActive (fun r => .next (s.executed (aluOf r s p.aluOrMode))) p.opc
  | .writeBack => s.onActive (fun r => s.writeBack r p) p.opc

/-- `n` stage steps, stopping at the first fault or refusal. -/
def stageSteps (n : Nat) (s : State xlen) (p : Params := defaultParams) : Result xlen :=
  match n with
  | 0 => .next s
  | n + 1 =>
    match stageStep s p with
    | .next s' => stageSteps n s' p
    | .fault f => .fault f
    | .refused q => .refused q

/-- Finish the instruction in flight: stage steps until FETCH, at most `n`. -/
def finishInstruction (n : Nat) (s : State xlen) (p : Params := defaultParams) : Result xlen :=
  match n with
  | 0 => .next s
  | n + 1 =>
    if s.currentStage = .fetch then .next s
    else
      match stageStep s p with
      | .next s' => finishInstruction n s' p
      | .fault f => .fault f
      | .refused q => .refused q

/-- The meaning of every instruction for any width and any parameters; `exec` is the same at the defaults. -/
def execWith (p : Params) (i : Instr) (s : State xlen) : Result xlen :=
  match i with
  | .add dest src1 src2 => execAdd dest src1 src2 s p
  | .sub dest src1 src2 => execSub dest src1 src2 s p
  | .and dest src1 src2 => execAnd dest src1 src2 s p
  | .or dest src1 src2 => execOr dest src1 src2 s p
  | .addi dest src1 immediate => execAddi dest src1 immediate s p
  | .ldi dest immediate => execLdi dest immediate s p
  | .mov dest immediate => execMov dest immediate s p
  | .load dest src1 => execLoad dest src1 s p
  | .store src1 src2 => execStore src1 src2 s p
  | .brz src1 address => execBrz src1 address s p
  | .jmp src1 => execJmp src1 s p
  | .nop => execNop s p
  | .unknown text => execUnknown text s p

/-- One whole instruction from FETCH: the fault of R206, the halted fixed point of R104, or the meaning, by `run`, of
the instruction at `pc` (R120). -/
def fetchAndExec (run : Instr → State xlen → Result xlen) (s : State xlen) (o : Tag → BitVec 7 := opc) : Result xlen :=
  if s.pc < 0 then .fault .negativePc
  else
    match recordAt s.instructionMemory s.pc with
    | none => .next s
    | some r =>
      match r.instr? o with
      | some i => run i s
      | none => .refused .illFormedRecord

/-- The step over one instruction: from FETCH the whole instruction by `run`, from a later stage the rest of the one in
flight (log entry 1). -/
def instructionStep (run : Instr → State xlen → Result xlen) (s : State xlen) (p : Params := defaultParams) :
    Result xlen :=
  match s.currentStage with
  | .fetch => fetchAndExec run s p.opc
  | .decode => finishInstruction 3 s p
  | .execute => finishInstruction 2 s p
  | .writeBack => finishInstruction 1 s p

/-- The step over one instruction for any width and any parameters; `step` is the same at the defaults. -/
def stepWith (p : Params) (s : State xlen) : Result xlen := instructionStep (execWith p) s p

/-! ### Placing one record where the next FETCH finds it -/

/-- The program with record `r` at index `n`; missing slots before it are NOPs. -/
def placeAt : List Record → Nat → Record → List Record
  | [], 0, r => [r]
  | _ :: im, 0, r => r :: im
  | [], n + 1, r => Instr.nop.record :: placeAt [] n r
  | q :: im, n + 1, r => q :: placeAt im n r

/-- The record a table word stands for: the record of the instruction it reads back as. A word with an unassigned
opcode field and a row of another width than one word stand for no instruction (30_encoding.md R76, R62): the record is
then one that no opcode table makes well-formed, a NOP with a destination outside `[0, 7]`. -/
def recordOfWord (nbits w : Nat) : Record :=
  match decodeTableWord nbits w with
  | some i => i.record
  | none => ⟨.nop, some Config.nreg, none, none, none, none, BitVec.ofNat 16 w⟩

/-- A state whose next FETCH finds that record: at `pc`, or at 0 where `pc` is negative (log entry 10). -/
def placeFetchWord (s : State xlen) (nbits w : Nat) : State xlen :=
  { s with
    pc := max s.pc 0
    currentStage := .fetch
    instructionMemory := placeAt s.instructionMemory s.pc.toNat (recordOfWord nbits w) }

end Sys2Proof.Machine
end

