-- ==== Sys2Proof/Machine/Step.lean ====
section
/-! DEFINITION. The machine's step: one instruction (spec/40_stage_machine.md R120). The spec's own unit, the stage
step of R101, is `stageStep` in Machine/StageMachine.lean. -/

namespace Sys2Proof.Machine

/-- One step of the machine (log entry 1). -/
def step (s : State) : Host.Outcome State Fault Refusal := instructionStep exec s

/-- `s` with a table word's instruction where the next step fetches it (log entry 10). -/
def State.withFetchWord (s : State) (nbits w : Nat) : State := placeFetchWord s nbits w

end Sys2Proof.Machine
end

