-- ==== Sys2Proof/Machine/Assembler.lean ====
section
/-! DEFINITION. The assembler's text front end (spec/30_encoding.md R80 to R90): source text to instruction records.
It is total and never fails (R90). -/

namespace Sys2Proof.Machine

/-- The mnemonics of R85, in capitals. -/
def mnemonics : List (List Char × Tag) :=
  [(['A', 'D', 'D'], .add), (['S', 'U', 'B'], .sub), (['A', 'N', 'D'], .and), (['O', 'R'], .or),
   (['A', 'D', 'D', 'I'], .addi), (['L', 'D', 'I'], .ldi), (['M', 'O', 'V'], .mov),
   (['L', 'O', 'A', 'D'], .load), (['S', 'T', 'O', 'R', 'E'], .store), (['B', 'R', 'Z'], .brz),
   (['J', 'M', 'P'], .jmp), (['N', 'O', 'P'], .nop)]

/-! ### Lines and tokens (R81, R82) -/

/-- A whitespace character: space, tab, line feed, vertical tab, form feed, carriage return (log entry 8). -/
def isBlankChar (c : Char) : Bool := c == ' ' || (decide (9 ≤ c.toNat) && decide (c.toNat ≤ 13))

/-- A separator of tokens: a comma or whitespace (R82). -/
def isSeparator (c : Char) : Bool := c == ',' || isBlankChar c

/-- Drop a carriage return before a line feed (R81). -/
def dropReturn (line : List Char) : List Char :=
  if line.getLast? == some '\r' then line.dropLast else line

/-- The lines of a text, split at line feed; `line` is the part of the current line read so far (R81). -/
def linesFrom (line : List Char) : List Char → List (List Char)
  | [] => [line]
  | c :: text => if c == '\n' then dropReturn line :: linesFrom [] text else linesFrom (line ++ [c]) text

/-- A line that yields a record: neither blank nor, after leading whitespace, begun with `;` (R81). -/
def isCodeLine (line : List Char) : Bool :=
  match line.dropWhile isBlankChar with
  | [] => false
  | c :: _ => c != ';'

/-- Put a finished token before the later ones, unless it is empty (R82). -/
def keepToken (token : List Char) (later : List (List Char)) : List (List Char) :=
  if token.isEmpty then later else token :: later

/-- The tokens of a line; `token` is the part of the current token read so far (R82). -/
def tokensFrom (token : List Char) : List Char → List (List Char)
  | [] => keepToken token []
  | c :: line => if isSeparator c then keepToken token (tokensFrom [] line) else tokensFrom (token ++ [c]) line

/-! ### Operand tokens (R82, R84, R88) -/

/-- The value of one or more decimal digits and nothing else. -/
def digitsValue (cs : List Char) : Option Nat :=
  if !cs.isEmpty && cs.all Char.isDigit then some (cs.foldl (fun n c => n * 10 + (c.toNat - 48)) 0) else none

/-- A register token `R<n>`, in either case; 0 when malformed (R82, decision D10). -/
def registerToken : List Char → Nat
  | [] => 0
  | c :: cs => if c == 'R' || c == 'r' then (digitsValue cs).getD 0 else 0

/-- A numeric token: an optional sign and decimal digits; 0 when malformed (R84, decision D9). -/
def numericToken : List Char → Int
  | [] => 0
  | c :: cs =>
    if c == '-' then -(((digitsValue cs).getD 0 : Nat) : Int)
    else if c == '+' then (((digitsValue cs).getD 0 : Nat) : Int)
    else (((digitsValue (c :: cs)).getD 0 : Nat) : Int)

/-- The register operand at position `k`; 0 when the token is missing (R88). -/
def registerOperand (operands : List (List Char)) (k : Nat) : Nat := registerToken ((operands[k]?).getD [])

/-- The numeric operand at position `k`, in the domain `imm` of immediates; 0 when the token is missing (R84, R88). -/
def numericOperand (operands : List (List Char)) (k : Nat) (imm : Int → Int := id) : Int :=
  imm (numericToken ((operands[k]?).getD []))

/-! ### Lines to records (R80, R85, R89) -/

/-- The tag a first token selects, without regard to letter case (R85); none for an unrecognised mnemonic. -/
def tagOfMnemonic (names : List (List Char × Tag)) (token : List Char) : Option Tag :=
  (names.find? fun p => p.1 == token.map Char.toUpper).map Prod.snd

/-- The operand tokens of a tag, taken by position (R80). -/
def instrOfOperands (t : Tag) (ops : List (List Char)) (imm : Int → Int := id) : Instr :=
  match t with
  | .add => .add (registerOperand ops 0) (registerOperand ops 1) (registerOperand ops 2)
  | .sub => .sub (registerOperand ops 0) (registerOperand ops 1) (registerOperand ops 2)
  | .and => .and (registerOperand ops 0) (registerOperand ops 1) (registerOperand ops 2)
  | .or => .or (registerOperand ops 0) (registerOperand ops 1) (registerOperand ops 2)
  | .addi => .addi (registerOperand ops 0) (registerOperand ops 1) (numericOperand ops 2 imm)
  | .ldi => .ldi (registerOperand ops 0) (numericOperand ops 1 imm)
  | .mov => .mov (registerOperand ops 0) (numericOperand ops 1 imm)
  | .load => .load (registerOperand ops 0) (registerOperand ops 1)
  | .store => .store (registerOperand ops 0) (registerOperand ops 1)
  | .brz => .brz (registerOperand ops 0) (numericOperand ops 1 imm)
  | .jmp => .jmp (registerOperand ops 0)
  | .nop => .nop
  | .unknown text => .unknown text

/-- The instruction of a line's tokens. An unrecognised mnemonic keeps its text (R89); a line of separators only has
no first token and is taken as an unrecognised mnemonic with empty text (log entry 9). -/
def instrOfTokens (names : List (List Char × Tag)) (tokens : List (List Char)) (imm : Int → Int := id) : Instr :=
  match tokens with
  | [] => .unknown []
  | token :: operands =>
    match tagOfMnemonic names token with
    | some t => instrOfOperands t operands imm
    | none => .unknown token

/-- The instruction of one line. -/
def instrOfLine (names : List (List Char × Tag)) (line : List Char) (imm : Int → Int := id) : Instr :=
  instrOfTokens names (tokensFrom [] line) imm

/-- `assemble(sourceText)` for values of `MNEMONIC_ALIASES`, `OPC` and `IMM_DOMAIN`: one record for each line that is not
skipped, in order (R81). -/
def assembleWith (aliases : List (List Char × Tag)) (text : List Char) (o : Tag → BitVec 7 := opc)
    (imm : Int → Int := id) : List Record :=
  ((linesFrom [] text).filter isCodeLine).map fun line => (instrOfLine (mnemonics ++ aliases) line imm).recordWith o

/-- `assemble(sourceText)`. -/
def assemble (text : List Char) (p : Params := defaultParams) : List Record :=
  assembleWith p.aliases text p.opc p.immDomain

end Sys2Proof.Machine
end

