-- ==== Sys2Proof/Machine/Driver.lean ====
section
/-! DEFINITION. The driver operations: the hardware's whole external interface (spec/46_driver_interface.md). `step()`
is `stageStep` (R183). -/

namespace Sys2Proof.Machine

variable {xlen : Nat}

/-- `reset()`: registers, `pc`, data memory and stage; the instruction memory is kept and the working registers become
unspecified (R182). -/
def State.resetCpu (s : State xlen) : State xlen where
  registers := Vector.replicate Config.nreg 0
  pc := 0
  dataMemory := []
  instructionMemory := s.instructionMemory
  currentStage := .fetch
  controlSignals := Config.resetSignals
  aluResult := Config.resetAluResult xlen
  currentInstructionIndex := Config.resetInstructionIndex

/-- A model refuses a program that holds a record that is not well-formed (60_exceptions.md R205). -/
def programOk (program : List Record) (o : Tag → BitVec 7 := opc) : Bool := program.all fun r => r.wellFormed o

/-- The program has a length that `PROG_MAX_LEN` allows (10_state.md R26). -/
def lengthOk (bound : Option Nat) (program : List Record) : Bool := bound.all fun n => decide (program.length ≤ n)

/-- Put a program of records in the instruction memory and reset (R181), if the program is accepted (R205). -/
def State.loadRecords (s : State xlen) (program : List Record) (p : Params := defaultParams) : Result xlen :=
  if !programOk program p.opc then .refused .illFormedRecord
  else if !lengthOk p.progMaxLen program then .refused .programTooLong
  else .next { s with instructionMemory := program }.resetCpu

/-- `load(sourceText)`: assemble, replace the instruction memory, reset (R181, R205). -/
def State.load (s : State xlen) (text : List Char) (p : Params := defaultParams) : Result xlen :=
  s.loadRecords (assemble text p) p

/-- What `step()` reports: halted, exactly when the step is a FETCH at or past the end (R184). -/
def State.stepReportsHalted (s : State xlen) : Bool := s.isHalted

/-- `run`: stage steps until one reports halted, under fuel (R185); the interval has no meaning here. -/
def State.run (n : Nat) (s : State xlen) (p : Params := defaultParams) : Result xlen :=
  match n with
  | 0 => .next s
  | n + 1 =>
    if s.isHalted then .next s
    else
      match stageStep s p with
      | .next s' => State.run n s' p
      | .fault f => .fault f
      | .refused q => .refused q

/-- `pause()` changes no component of the state (R186). -/
def State.pause (s : State xlen) : State xlen := s

/-- The snapshot is the full state, read only (R188). -/
def State.snapshot (s : State xlen) : State xlen := s

end Sys2Proof.Machine
end

