-- ==== Sys2Proof/Safety.lean ====
section
/-! DEFINITION. What counts as a safe run, and the invariant of the machine. -/

namespace Sys2Proof.Machine

variable {xlen : Nat}

/-- The program of a state is accepted: every record is well-formed under the opcode table (spec/60_exceptions.md
R205). -/
def State.Accepted (s : State xlen) (o : Tag → BitVec 7 := opc) : Prop :=
  ∀ r ∈ s.instructionMemory, r.wellFormed o = true

/-- In flight, `currentInstructionIndex` is `pc` and names a record (spec/10_state.md R31, spec/40_stage_machine.md
R121). -/
def State.InFlight (s : State xlen) : Prop :=
  s.currentInstructionIndex = s.pc ∧ 0 ≤ s.pc ∧ s.pc < s.instructionMemory.length

/-- The working registers hold what the stages already done of the active instruction wrote (R29, R30, R111). -/
def State.WorkingOk (s : State xlen) (mode : AluOrMode := aluOrMode) : Prop :=
  ∀ r, s.activeRecord = some r →
    ((s.currentStage = .execute ∨ s.currentStage = .writeBack) → s.controlSignals = signals r.binary) ∧
    (s.currentStage = .writeBack → s.aluResult = aluOf r s mode)

/-- The invariant of the machine: the data memory is in its canonical form, the program is accepted, and an instruction
in flight is tracked as R31, R29, R30 and R121 say. -/
structure State.Inv (s : State xlen) (p : Params := defaultParams) : Prop where
  memory : Memory.wf s.dataMemory = true
  accepted : s.Accepted p.opc
  inFlight : s.currentStage ≠ .fetch → s.InFlight
  working : s.currentStage ≠ .fetch → s.WorkingOk p.aluOrMode

/-- The register an instruction writes: the `dest` of ADD, SUB, AND, OR, ADDI, LDI, MOV and LOAD, and of no other
(spec/10_state.md R20). -/
def writtenRegister : Instr → Option Nat
  | .add d _ _ => some d
  | .sub d _ _ => some d
  | .and d _ _ => some d
  | .or d _ _ => some d
  | .addi d _ _ => some d
  | .ldi d _ => some d
  | .mov d _ => some d
  | .load d _ => some d
  | .store _ _ => none
  | .brz _ _ => none
  | .jmp _ => none
  | .nop => none
  | .unknown _ => none

/-- An instruction that transfers control: BRZ and JMP (spec/44_control_transfer.md R160). -/
def isTransfer : Instr → Bool
  | .brz _ _ => true
  | .jmp _ => true
  | _ => false

/-- A step goes on: it answers a next state. -/
def Result.Goes (o : Result xlen) : Prop := ∃ s, o = .next s

/-- A run of `n` stage steps is safe: it meets neither a fault nor a refusal. -/
def State.SafeFor (n : Nat) (s : State xlen) (p : Params := defaultParams) : Prop := Result.Goes (stageSteps n s p)

end Sys2Proof.Machine
end

