-- ==== Sys2Proof/Certificates/Slice0/Obligations.lean ====
section
/-! DEFINITION. The statements for the provers, from the numbered rules of spec/. -/

namespace Sys2Proof.Machine

/-! ### Words the statements use -/

/-- The control signals of each tag's default pattern, row by row (spec/30_encoding.md R75), in the order
MB MD RW MW PL JB BC. -/
def expectedSignals : Tag → ControlSignals
  | .add => ⟨false, false, true, false, false, false, false⟩
  | .sub => ⟨false, false, true, false, false, false, true⟩
  | .and => ⟨false, false, true, false, false, false, false⟩
  | .or => ⟨false, false, true, false, false, false, true⟩
  | .addi => ⟨true, false, true, false, false, false, false⟩
  | .ldi => ⟨true, false, true, false, false, false, false⟩
  | .mov => ⟨true, false, true, false, false, false, false⟩
  | .load => ⟨false, true, true, false, false, true, false⟩
  | .store => ⟨false, false, false, true, false, false, false⟩
  | .brz => ⟨true, false, false, false, true, false, false⟩
  | .jmp => ⟨true, true, false, false, true, true, false⟩
  | .nop => ⟨false, false, true, false, false, false, false⟩
  | .unknown _ => ⟨false, false, true, false, false, false, false⟩

/-- EXECUTE's table in modular arithmetic of the word (spec/40_stage_machine.md R110). -/
def expectedAlu (mode : AluOrMode) (r : Record) (s : State) : Word :=
  match r.opcode, mode with
  | .add, _ => s.rd r.src1 + s.rd r.src2
  | .sub, _ => s.rd r.src1 - s.rd r.src2
  | .addi, _ => s.rd r.src1 + BitVec.ofInt Config.xlen (valueOf r.immediate)
  | .ldi, _ => BitVec.ofInt Config.xlen (valueOf r.immediate)
  | .mov, _ => BitVec.ofInt Config.xlen (valueOf r.immediate)
  | .and, _ => s.rd r.src1 &&& s.rd r.src2
  | .or, .tableLiteral => 0
  | .or, .bitwiseOr => s.rd r.src1 ||| s.rd r.src2
  | .load, _ => s.rd r.src1
  | .store, _ => s.rd r.src1
  | .brz, _ => s.rd r.src1
  | .jmp, _ => 0
  | .nop, _ => 0
  | .unknown _, _ => 0

/-- The number of operand tokens a tag takes (spec/30_encoding.md R80). -/
def operandCount : Tag → Nat
  | .add | .sub | .and | .or | .addi => 3
  | .ldi | .mov | .load | .store | .brz => 2
  | .jmp => 1
  | .nop | .unknown _ => 0

/-- The stage after a stage (spec/40_stage_machine.md R100). -/
def nextStage : Stage → Stage
  | .fetch => .decode
  | .decode => .execute
  | .execute => .writeBack
  | .writeBack => .fetch

/-- How many stage steps are left of the instruction in flight. -/
def stagesLeft : Stage → Nat
  | .fetch => 4
  | .decode => 3
  | .execute => 2
  | .writeBack => 1

/-- Every register reads as before. -/
def SameRegisters (s t : State) : Prop := ∀ n : Nat, t.rd (some n) = s.rd (some n)

/-- Every data cell is as before: the same keys, the same values. -/
def SameMemory (s t : State) : Prop := ∀ a : Nat, Memory.cell t.dataMemory a = Memory.cell s.dataMemory a

/-- What a whole instruction with EXECUTE value `v` leaves in the control state (spec/40_stage_machine.md R120), the
program being kept. The signals are those of the default opcode table (30_encoding.md R75); of ADD they are the
source's, of the other tags those that R74 does not force rest on log entry 6. -/
def ControlStateAfter (i : Instr) (v : Word) (s t : State) : Prop :=
  t.currentStage = .fetch ∧ t.currentInstructionIndex = s.pc ∧ t.controlSignals = expectedSignals i.tag ∧
    t.aluResult = v ∧ t.instructionMemory = s.instructionMemory

end Sys2Proof.Machine

open Sys2Proof Sys2Proof.Machine

/-! ### Encoding -/

/-- Words written out bit by bit from the encodings of R91 decode to the instructions they stand for. -/
def Obligations.WrittenOutWordsDecode : Prop :=
  decode 0b0000010_001_010_011#16 = .instr (.add 1 2 3) ∧
  decode 0b0000101_011_001_010#16 = .instr (.sub 3 1 2) ∧
  decode 0b1000010_001_001_111#16 = .instr (.addi 1 1 7) ∧
  decode 0b1001100_001_000_101#16 = .instr (.ldi 1 5) ∧
  decode 0b0010000_110_001_000#16 = .instr (.load 6 1) ∧
  decode 0b0100000_000_001_101#16 = .instr (.store 1 5) ∧
  decode 0b1100000_000_010_110#16 = .instr (.brz 2 6) ∧
  decode 0b1110000_000_111_000#16 = .instr (.jmp 7) ∧
  decode 0b0000000_000_000_000#16 = .instr .nop

/-- R63: a field is the value reduced as an unsigned 32-bit number to its low three bits, which is its residue mod 8;
`000` when unset; with the examples of the rule. -/
def Obligations.FieldIsTheLowThreeBits : Prop :=
  (∀ v : Int, ((field3 v).toNat : Int) = (v % 2 ^ 32) % 8 ∧ ((field3 v).toNat : Int) = v % 8) ∧
  (∀ n : Nat, (regField (some n)).toNat = n % 8) ∧
  (∀ k : Int, ((intField (some k)).toNat : Int) = k % 8) ∧
  regField none = 0#3 ∧ intField none = 0#3 ∧
  [field3 0, field3 5, field3 7, field3 8, field3 10, field3 (-1), field3 (-2), field3 (-3), field3 (-8), field3 65536] =
    [0b000#3, 0b101#3, 0b111#3, 0b000#3, 0b010#3, 0b111#3, 0b110#3, 0b101#3, 0b000#3, 0b000#3]

/-- R65, under every opcode table and for every record: the concatenation of the four fields, and the same as a number,
with 0 for an unset field and the third field that of `src2` if set, else `immediate` if set, else `address`. -/
def Obligations.EncodeConcatenatesFourFields : Prop :=
  ∀ (o : Tag → BitVec 7) (r : Record),
    let third : BitVec 3 :=
      if r.src2.isSome then regField r.src2 else if r.immediate.isSome then intField r.immediate else intField r.address
    encodeRecordWith o r = o r.opcode ++ regField r.dest ++ regField r.src1 ++ third ∧
    ((encodeRecordWith o r).toNat : Int) =
      (o r.opcode).toNat * 512 + (((r.dest.getD 0 : Nat) : Int) % 8) * 64 + (((r.src1.getD 0 : Nat) : Int) % 8) * 8 +
        (if r.src2.isSome then ((r.src2.getD 0 : Nat) : Int) % 8
         else if r.immediate.isSome then r.immediate.getD 0 % 8 else r.address.getD 0 % 8)

/-- Decoding the word of any instruction gives the instruction with its operands reduced mod 8, MOV as LDI and an
unrecognised mnemonic as NOP (R66, R67), under the default opcode table. -/
def Obligations.DecodeOfEncodeIsTheResidue : Prop :=
  ∀ i : Instr, decode (encode i) = .instr i.readBack

/-- Decode and encode agree, for every instruction a word can carry whole and every value its fields admit. -/
def Obligations.DecodeOfEncodeIsTheInstruction : Prop :=
  ∀ i : Instr, i.fitsWord = true → decode (encode i) = .instr i

/-- The decoder rejects exactly the words whose opcode field is no tag's pattern, and names the field (R67, R76). -/
def Obligations.DecoderRejectsExactlyUnassignedFields : Prop :=
  ∀ w : BitVec 16, decode w = .rejected (.unassignedOpcode (opcodeField w)) ↔ ∀ t : Tag, opc t ≠ opcodeField w

/-- An instruction read back from a word is well-formed, keeps the word's opcode field and the word's fields that its
layout uses, and reads back again. -/
def Obligations.DecodedInstructionsEncodeBack : Prop :=
  ∀ (w : BitVec 16) (i : Instr), decode w = .instr i →
    i.wellFormed = true ∧ opcodeField (encode i) = opcodeField w ∧
    (i.tag.layout.dest = true → destField (encode i) = destField w) ∧
    (i.tag.layout.src1 = true → src1Field (encode i) = src1Field w) ∧
    decode (encode i) = .instr i

/-- R27: the well-formed records are exactly the records assembled from instructions whose register indices are in
`[0, 7]`. -/
def Obligations.WellFormedRecordsAreAssembledRecords : Prop :=
  ∀ r : Record, r.wellFormed = true ↔ ∃ i : Instr, i.wellFormed = true ∧ i.record = r

/-! ### The text front end -/

/-- R27, R80: whatever the source text, the assembler's records have the set-ness pattern of their tag and the word
that `encode` gives; only a register index can make one ill-formed. -/
def Obligations.AssembledRecordsAreConsistent : Prop :=
  ∀ (aliases : List (List Char × Tag)) (text : List Char), ∀ r ∈ assembleWith aliases text,
    r.layoutOk = true ∧ r.binaryOk = true ∧ (r.wellFormed = false → r.indicesOk = false)

/-- R85: two first tokens that differ in letter case only select the same instruction, if they select a tag at all. -/
def Obligations.MnemonicsIgnoreLetterCase : Prop :=
  ∀ (names : List (List Char × Tag)) (m m' : List Char) (operands : List (List Char)),
    m.map Char.toUpper = m'.map Char.toUpper → tagOfMnemonic names m ≠ none →
      instrOfTokens names (m :: operands) = instrOfTokens names (m' :: operands)

/-- R88: a missing operand token gives 0 in a field that is still set, and tokens beyond the number the mnemonic takes
are ignored. That extra tokens are ignored is the spec's own reading (decision D8; log entry 8). -/
def Obligations.MissingOperandsAreZeroExtraOnesIgnored : Prop :=
  (∀ (ops : List (List Char)) (k : Nat), ops.length ≤ k → registerOperand ops k = 0 ∧ numericOperand ops k = 0) ∧
  (∀ (t : Tag) (ops : List (List Char)), (instrOfOperands t ops).record.layout = t.layout) ∧
  (∀ (t : Tag) (ops extra : List (List Char)), operandCount t ≤ ops.length →
    instrOfOperands t (ops ++ extra) = instrOfOperands t ops)

/-! ### Control signals -/

/-- R108: the table of the eight values of bits 15, 14, 13; exactly one of `RW`, `MW`, `PL` is 1 in every word, so no
word both writes memory and writes a register, loads `pc` and writes a register, or loads `pc` and writes memory. -/
def Obligations.ExactlyOneOfTheWritesIsEnabled : Prop :=
  ∀ (b : BitVec 16) (p q r : Bool), b.getLsbD 15 = p → b.getLsbD 14 = q → b.getLsbD 13 = r →
    ((signals b).RW, (signals b).MW, (signals b).PL, (signals b).MD, (signals b).JB, (signals b).MB) =
      (match p, q, r with
       | false, false, false => (true, false, false, false, false, false)
       | false, false, true => (true, false, false, true, true, false)
       | false, true, false => (false, true, false, false, false, false)
       | false, true, true => (false, true, false, true, true, false)
       | true, false, false => (true, false, false, false, false, true)
       | true, false, true => (true, false, false, true, true, true)
       | true, true, false => (false, false, true, false, false, true)
       | true, true, true => (false, false, true, true, true, true)) ∧
    (signals b).RW.toNat + (signals b).MW.toNat + (signals b).PL.toNat = 1 ∧
    ((signals b).RW = true ↔ q = false) ∧
    (q = true → ((signals b).PL = true ↔ p = true) ∧ ((signals b).MW = true ↔ p = false))

/-- R106: bits 15, 14, 13 are the three most significant bits of the opcode field and bit 9 its least significant bit,
so the control signals depend on the opcode field alone and never on an operand field. -/
def Obligations.SignalsDependOnTheOpcodeFieldAlone : Prop :=
  (∀ b : BitVec 16, (opcodeField b).getLsbD 6 = b.getLsbD 15 ∧ (opcodeField b).getLsbD 5 = b.getLsbD 14 ∧
    (opcodeField b).getLsbD 4 = b.getLsbD 13 ∧ (opcodeField b).getLsbD 0 = b.getLsbD 9) ∧
  (∀ b b' : BitVec 16, opcodeField b = opcodeField b' → signals b = signals b') ∧
  (∀ b b' : BitVec 16, b.getLsbD 15 = b'.getLsbD 15 → b.getLsbD 14 = b'.getLsbD 14 → b.getLsbD 13 = b'.getLsbD 13 →
    b.getLsbD 9 = b'.getLsbD 9 → signals b = signals b')

/-- The control signals of every instruction's word under the default opcode table, with every operand (R75). -/
def Obligations.SignalsOfEveryInstruction : Prop :=
  ∀ i : Instr, signals (encode i) = expectedSignals i.tag

/-! ### The four-stage machine -/

/-- R103: FETCH inside the program. -/
def Obligations.FetchInsideTheProgram : Prop :=
  ∀ s : State, s.currentStage = .fetch → 0 ≤ s.pc → s.pc < s.instructionMemory.length →
    stageStep s = .next { s with currentInstructionIndex := s.pc, currentStage := .decode }

/-- R104: FETCH at or past the end changes no component, reports halted, and every later step does the same; with an
empty program the very first step halts. That a FETCH below 0 is the fault of R206 is decision D11 (log entry 12), and `step`
is the model's step over one instruction (log entry 1). -/
def Obligations.HaltedFetchIsAFixedPoint : Prop :=
  (∀ s : State, s.currentStage = .fetch → (s.instructionMemory.length : Int) ≤ s.pc →
    stageStep s = .next s ∧ s.stepReportsHalted = true ∧ (∀ n : Nat, stageSteps n s = .next s) ∧ step s = .next s) ∧
  (∀ s : State, s.currentStage = .fetch → s.pc = 0 → s.instructionMemory = [] → stageStep s = .next s) ∧
  (∀ s : State, s.currentStage = .fetch → s.pc < 0 → stageStep s = .fault .negativePc)

/-- R206: a FETCH with a negative `pc` faults, neither halted nor final; and from the invariant a stage step makes `pc`
negative only as a taken BRZ with `pc + address < 0`. -/
def Obligations.NegativePcComesOnlyFromBrzAndFaults : Prop :=
  (∀ s : State, s.currentStage = .fetch → s.pc < 0 →
    stageStep s = .fault .negativePc ∧ step s = .fault .negativePc ∧ s.isHalted = false) ∧
  (∀ s t : State, s.Inv → stageStep s = .next t → t.pc < 0 →
    s.currentStage = .writeBack ∧ 0 ≤ s.pc ∧
      ∃ (a : Nat) (k : Int), s.activeRecord = some (Instr.brz a k).record ∧ s.rd (some a) = 0 ∧ t.pc = s.pc + k)

/-- R105: DECODE. -/
def Obligations.DecodeWritesTheSignalsOfTheWord : Prop :=
  ∀ (s : State) (r : Record), s.currentStage = .decode → s.activeRecord = some r → r.wellFormed = true →
    stageStep s = .next
      { s with
        controlSignals :=
          { PL := r.binary.getLsbD 15 && r.binary.getLsbD 14
            JB := r.binary.getLsbD 13
            MB := r.binary.getLsbD 15
            MD := r.binary.getLsbD 13
            MW := r.binary.getLsbD 14 && !r.binary.getLsbD 15
            RW := !r.binary.getLsbD 14
            BC := r.binary.getLsbD 9 }
        currentStage := .execute }

/-- R110: EXECUTE by opcode tag, the sums and the difference modulo `2^XLEN`, OR in the machine's `ALU_OR_MODE`. -/
def Obligations.ExecuteComputesTheAluTable : Prop :=
  ∀ (s : State) (r : Record), s.currentStage = .execute → s.activeRecord = some r → r.wellFormed = true →
    stageStep s = .next { s with aluResult := expectedAlu aluOrMode r s, currentStage := .writeBack }

/-- R118: WRITE_BACK as one atomic step, for every value of the control signals: the memory write, then the register
write from the ALU result or from the cell, then the `pc` write, then FETCH; nothing else changes. -/
def Obligations.WriteBackAppliesItsStepsInOrder : Prop :=
  ∀ (s : State) (r : Record), s.currentStage = .writeBack → s.activeRecord = some r → r.wellFormed = true →
    ∃ t : State, stageStep s = .next t ∧
      (∀ a : Nat, Memory.cell t.dataMemory a =
        if s.controlSignals.MW = true ∧ a = s.aluResult.toNat then some (s.rd r.src2)
        else Memory.cell s.dataMemory a) ∧
      (∀ n : Nat, t.rd (some n) =
        if s.controlSignals.RW = true ∧ r.dest = some n then
          if s.controlSignals.MD = true then (Memory.cell t.dataMemory s.aluResult.toNat).getD 0 else s.aluResult
        else s.rd (some n)) ∧
      t.pc =
        (if s.controlSignals.PL = true ∧ s.controlSignals.JB = true then ((t.rd r.src1).toNat : Int)
         else if s.controlSignals.PL = true ∧ s.controlSignals.JB = false ∧ s.aluResult = 0 then
           s.pc + valueOf r.address
         else s.pc + 1) ∧
      t.currentStage = .fetch ∧ t.instructionMemory = s.instructionMemory ∧ t.controlSignals = s.controlSignals ∧
      t.aluResult = s.aluResult ∧ t.currentInstructionIndex = s.currentInstructionIndex

/-- R36: per stage step, who writes what; and an instruction abandoned after its FETCH, DECODE or EXECUTE step leaves
no trace in registers, data memory or `pc`. -/
def Obligations.EachStageWritesOnlyItsOwn : Prop :=
  (∀ s t : State, stageStep s = .next t →
    (s.currentStage = .fetch → ∃ x st, t = { s with currentInstructionIndex := x, currentStage := st }) ∧
    (s.currentStage = .decode → ∃ c st, t = { s with controlSignals := c, currentStage := st }) ∧
    (s.currentStage = .execute → ∃ v st, t = { s with aluResult := v, currentStage := st }) ∧
    (s.currentStage = .writeBack → ∃ x m p st,
      t = { s with registers := x, dataMemory := m, pc := p, currentStage := st })) ∧
  (∀ (s t : State) (n : Nat), s.currentStage = .fetch → n ≤ 3 → stageSteps n s = .next t →
    SameRegisters s t ∧ SameMemory s t ∧ t.pc = s.pc)

/-- R100: a stage step goes to the next stage of the cycle; the only departure is a FETCH that halts. -/
def Obligations.StagesAreStrictlyCyclic : Prop :=
  ∀ s t : State, stageStep s = .next t →
    t.currentStage = nextStage s.currentStage ∨ (s.isHalted = true ∧ t = s ∧ t.currentStage = .fetch)

/-- R187: `isHalted()` is exactly `currentStage = FETCH and pc ≥ len(IM)`, and exactly the state in which the next step
changes nothing; true of an empty program right after a reset. -/
def Obligations.HaltedExactlyWhenTheStepChangesNothing : Prop :=
  (∀ s : State, s.isHalted = true ↔ s.currentStage = .fetch ∧ (s.instructionMemory.length : Int) ≤ s.pc) ∧
  (∀ s : State, s.isHalted = true ↔ stageStep s = .next s) ∧
  (∀ s t : State, s.load [] = .next t → t.isHalted = true)

/-- R185: `run` under fuel reaches what the same number of `step()` calls reach. -/
def Obligations.RunReachesWhatTheStepsReach : Prop :=
  ∀ (n : Nat) (s : State), State.run n s = stageSteps n s

/-- Stopping between any two stage steps and going on reaches what an unbroken run reaches (R186). -/
def Obligations.PausedRunsContinueFromTheSameState : Prop :=
  ∀ (m n : Nat) (s t : State), stageSteps m s = .next t → stageSteps n t.pause = stageSteps (m + n) s

/-! ### The instructions: where each completes, and with what result -/

/-- ADD: the sum modulo `2^16` (R131). -/
def Obligations.AddCompletesWithTheSum : Prop :=
  ∀ (s : State) (d a b : Nat), d < 8 → ∃ t : State, exec (.add d a b) s = .next t ∧
    (t.rd (some d)).toNat = ((s.rd (some a)).toNat + (s.rd (some b)).toNat) % 65536 ∧
    t.pc = s.pc + 1 ∧ ControlStateAfter (.add d a b) (t.rd (some d)) s t

/-- SUB: first source minus second source, negative as unsigned, modulo `2^16` (R132). The control state's MB and BC rest
on the default opcode table (R75; log entry 6). -/
def Obligations.SubCompletesWithTheDifference : Prop :=
  ∀ (s : State) (d a b : Nat), d < 8 → ∃ t : State, exec (.sub d a b) s = .next t ∧
    ((t.rd (some d)).toNat : Int) = (((s.rd (some a)).toNat : Int) - (s.rd (some b)).toNat) % 65536 ∧
    t.pc = s.pc + 1 ∧ ControlStateAfter (.sub d a b) (t.rd (some d)) s t

/-- AND: bit by bit (R133). The control state's MB and BC rest on the default opcode table (R75; log entry 6). -/
def Obligations.AndCompletesBitwise : Prop :=
  ∀ (s : State) (d a b : Nat), d < 8 → ∃ t : State, exec (.and d a b) s = .next t ∧
    (∀ k : Nat, (t.rd (some d)).getLsbD k = ((s.rd (some a)).getLsbD k && (s.rd (some b)).getLsbD k)) ∧
    t.pc = s.pc + 1 ∧ ControlStateAfter (.and d a b) (t.rd (some d)) s t

/-- OR in the machine's `ALU_OR_MODE`, and what each mode computes (R134; the mode is a parameter, log entry 7). The
control state's MB and BC rest on the default opcode table (R75; log entry 6). -/
def Obligations.OrCompletesInItsMode : Prop :=
  (∀ (s : State) (d a b : Nat), d < 8 → ∃ t : State, exec (.or d a b) s = .next t ∧
    t.rd (some d) = aluOr aluOrMode (s.rd (some a)) (s.rd (some b)) ∧
    t.pc = s.pc + 1 ∧ ControlStateAfter (.or d a b) (t.rd (some d)) s t) ∧
  (∀ x y : Word, aluOr .tableLiteral x y = 0 ∧
    ∀ k : Nat, (aluOr .bitwiseOr x y).getLsbD k = (x.getLsbD k || y.getLsbD k))

/-- ADDI: the full typed immediate, modulo `2^16` (R140). The control state's MB and BC rest on the default opcode table
(R75; log entry 6). -/
def Obligations.AddiCompletesWithTheFullImmediate : Prop :=
  ∀ (s : State) (d a : Nat) (k : Int), d < 8 → ∃ t : State, exec (.addi d a k) s = .next t ∧
    ((t.rd (some d)).toNat : Int) = (((s.rd (some a)).toNat : Int) + k) % 65536 ∧
    t.pc = s.pc + 1 ∧ ControlStateAfter (.addi d a k) (t.rd (some d)) s t

/-- LDI and MOV: the full typed immediate, modulo `2^16` (R141, R142). The control state's MB and BC rest on the default
opcode table (R75; log entry 6). -/
def Obligations.LdiAndMovCompleteWithTheFullImmediate : Prop :=
  ∀ (s : State) (d : Nat) (k : Int), d < 8 →
    (∃ t : State, exec (.ldi d k) s = .next t ∧ ((t.rd (some d)).toNat : Int) = k % 65536 ∧
      t.pc = s.pc + 1 ∧ ControlStateAfter (.ldi d k) (t.rd (some d)) s t) ∧
    (∃ t : State, exec (.mov d k) s = .next t ∧ ((t.rd (some d)).toNat : Int) = k % 65536 ∧
      t.pc = s.pc + 1 ∧ ControlStateAfter (.mov d k) (t.rd (some d)) s t)

/-- LOAD: the cell at the address register's value, 0 where it was never written (R150). The control state's MB and BC
rest on the default opcode table (R75; log entry 6). -/
def Obligations.LoadCompletesWithTheCell : Prop :=
  ∀ (s : State) (d a : Nat), d < 8 → ∃ t : State, exec (.load d a) s = .next t ∧
    t.rd (some d) = (Memory.cell s.dataMemory (s.rd (some a)).toNat).getD 0 ∧
    t.pc = s.pc + 1 ∧ ControlStateAfter (.load d a) (effectiveAddress s a) s t

/-- STORE: the cell at the first register's value receives the second register's value, 0 too (R151). The control state's
MD, JB and BC rest on the default opcode table (R75; log entry 6). -/
def Obligations.StoreCompletesWithTheWrite : Prop :=
  ∀ (s : State) (a b : Nat), ∃ t : State, exec (.store a b) s = .next t ∧
    Memory.cell t.dataMemory (s.rd (some a)).toNat = some (s.rd (some b)) ∧
    t.pc = s.pc + 1 ∧ ControlStateAfter (.store a b) (effectiveAddress s a) s t

/-- BRZ: taken exactly when the tested register is 0, relative to its own index, by the full typed offset (R161). The
control state's BC rests on the default opcode table (R75; log entry 6). -/
def Obligations.BrzCompletesTakenExactlyOnZero : Prop :=
  ∀ (s : State) (a : Nat) (k : Int), ∃ t : State, exec (.brz a k) s = .next t ∧
    (s.rd (some a) = 0 → t.pc = s.pc + k) ∧ (s.rd (some a) ≠ 0 → t.pc = s.pc + 1) ∧
    ControlStateAfter (.brz a k) (s.rd (some a)) s t

/-- JMP: absolute and unconditional (R162). The control state's BC rests on the default opcode table (R75; log entry 6). -/
def Obligations.JmpCompletesAtTheRegister : Prop :=
  ∀ (s : State) (a : Nat), ∃ t : State, exec (.jmp a) s = .next t ∧
    t.pc = (s.rd (some a)).toNat ∧ ControlStateAfter (.jmp a) 0 s t

/-- NOP and every unrecognised mnemonic: no register and no cell changes, `pc` advances by 1, and both leave the same
state (R170, R171). NOP's signals, and their being those of an unrecognised mnemonic, rest on the default pattern of NOP
(R75, decision D3; log entry 6), the unset fields of an unrecognised mnemonic on decision D7 (log entry 13). -/
def Obligations.NopAndUnknownCompleteWithoutEffect : Prop :=
  ∀ (s : State) (text : List Char), ∃ t : State, exec .nop s = .next t ∧ exec (.unknown text) s = .next t ∧
    SameRegisters s t ∧ SameMemory s t ∧ t.pc = s.pc + 1 ∧ ControlStateAfter .nop 0 s t

/-- A destination index above 7 is refused, for each of the eight register-writing instructions (30_encoding.md R83,
60_exceptions.md R205). -/
def Obligations.WritesAboveRegisterSevenAreRefused : Prop :=
  ∀ (i : Instr) (d : Nat) (s : State), writtenRegister i = some d → 8 ≤ d → exec i s = .refused .illFormedRecord

/-- A record that is not well-formed is refused by every stage that reads it and by the step that would run it
(60_exceptions.md R205); FETCH reads no record. A state past FETCH whose index names no record is refused under its own
name, the model's own choice (log entry 5). -/
def Obligations.IllFormedActiveRecordsAreRefused : Prop :=
  (∀ (s : State) (r : Record), s.currentStage ≠ .fetch → s.activeRecord = some r → r.wellFormed = false →
    stageStep s = .refused .illFormedRecord ∧ step s = .refused .illFormedRecord) ∧
  (∀ (s : State) (r : Record), s.currentStage = .fetch → recordAt s.instructionMemory s.pc = some r →
    r.wellFormed = false →
      step s = .refused .illFormedRecord ∧ ∃ t : State, stageStep s = .next t ∧ stageStep t = .refused .illFormedRecord) ∧
  (∀ s : State, s.currentStage ≠ .fetch → s.activeRecord = none →
    stageStep s = .refused .noActiveRecord ∧ step s = .refused .noActiveRecord)

/-! ### Frames -/

/-- ADD, SUB, AND, OR, ADDI, LDI, MOV, LOAD: every register but the destination, every data cell and the program are
unchanged (R20, R130, R140 to R142, R150). -/
def Obligations.RegisterWritersFrame : Prop :=
  ∀ (i : Instr) (d : Nat) (s t : State), writtenRegister i = some d → exec i s = .next t →
    (∀ n : Nat, n ≠ d → t.rd (some n) = s.rd (some n)) ∧ SameMemory s t ∧
    t.instructionMemory = s.instructionMemory

/-- STORE: every register, the program, and every data cell but the one at the effective address are unchanged
(R151, R152). -/
def Obligations.StoreFrame : Prop :=
  ∀ (a b : Nat) (s t : State), exec (.store a b) s = .next t →
    SameRegisters s t ∧ t.instructionMemory = s.instructionMemory ∧
    (∀ x : Nat, x ≠ (effectiveAddress s a).toNat → Memory.cell t.dataMemory x = Memory.cell s.dataMemory x)

/-- BRZ, JMP, NOP and unrecognised mnemonics: every register, every data cell and the program are unchanged
(R160, R170, R171). -/
def Obligations.TransferAndNopFrame : Prop :=
  ∀ (i : Instr) (s t : State), writtenRegister i = none → (∀ a b : Nat, i ≠ .store a b) → exec i s = .next t →
    SameRegisters s t ∧ SameMemory s t ∧ t.instructionMemory = s.instructionMemory

/-! ### Whole-machine rules -/

/-- R164: the next `pc` of every tag. -/
def Obligations.NextPcOfEveryTag : Prop :=
  ∀ (i : Instr) (s t : State), exec i s = .next t →
    t.pc =
      match i with
      | .brz a k => if s.rd (some a) = 0 then s.pc + k else s.pc + 1
      | .jmp a => ((s.rd (some a)).toNat : Int)
      | .add _ _ _ | .sub _ _ _ | .and _ _ _ | .or _ _ _ | .addi _ _ _ | .ldi _ _ | .mov _ _ | .load _ _
      | .store _ _ | .nop | .unknown _ => s.pc + 1

/-- A step from FETCH changes a data cell only if the instruction at `pc` is a STORE to it, and a register only if it
is that instruction's destination (R20, R42); no step changes the program (R41, R54). -/
def Obligations.StepChangesOnlyWhatItsInstructionWrites : Prop :=
  (∀ (s t : State) (x : Nat), s.currentStage = .fetch → step s = .next t →
    Memory.cell t.dataMemory x ≠ Memory.cell s.dataMemory x →
      ∃ a b : Nat, recordAt s.instructionMemory s.pc = some (Instr.store a b).record ∧
        x = (s.rd (some a)).toNat) ∧
  (∀ (s t : State) (n : Nat), s.currentStage = .fetch → step s = .next t → t.rd (some n) ≠ s.rd (some n) →
    ∃ i : Instr, recordAt s.instructionMemory s.pc = some i.record ∧ writtenRegister i = some n) ∧
  (∀ s t : State, step s = .next t → t.instructionMemory = s.instructionMemory)

/-- A LOAD from an address after a STORE to it, with no STORE to that address and no reset in between, yields the
stored value (R153): here, in any later state where that cell is still what the STORE left. -/
def Obligations.StoreThenLoadReturnsTheValue : Prop :=
  ∀ (s t u : State) (a b a' d : Nat), d < 8 → exec (.store a b) s = .next t →
    Memory.cell u.dataMemory (s.rd (some a)).toNat = Memory.cell t.dataMemory (s.rd (some a)).toNat →
    u.rd (some a') = s.rd (some a) →
      ∃ w : State, exec (.load d a') u = .next w ∧ w.rd (some d) = s.rd (some b)

/-- R142: MOV and LDI with the same operands have the same `binary` and the same effect on every component of the
state. -/
def Obligations.MovIsLdiUnderAnotherTag : Prop :=
  ∀ (d : Nat) (k : Int) (s : State), encode (.mov d k) = encode (.ldi d k) ∧ exec (.mov d k) s = exec (.ldi d k) s

/-- The step runs the instruction whose record stands at `pc`. -/
def Obligations.StepRunsTheInstructionAtPc : Prop :=
  ∀ (s : State) (i : Instr), s.currentStage = .fetch → i.wellFormed = true →
    recordAt s.instructionMemory s.pc = some i.record → step s = exec i s

/-- A word that decodes to an instruction, placed where the next step fetches it, is run by that step, with registers
and data memory as they were; a word with an unassigned opcode field, and a row of another width than 16 bits, is refused
by that step (R62, R76; the placing is log entry 10). -/
def Obligations.StepRunsThePlacedWord : Prop :=
  (∀ (s : State) (nbits w : Nat) (i : Instr), decodeTableWord nbits w = some i →
    step (s.withFetchWord nbits w) = exec i (s.withFetchWord nbits w) ∧
    SameRegisters s (s.withFetchWord nbits w) ∧ SameMemory s (s.withFetchWord nbits w) ∧
    (0 ≤ s.pc → (s.withFetchWord nbits w).pc = s.pc)) ∧
  (∀ (s : State) (nbits w : Nat), (nbits ≠ 16 ∨ ∀ t : Tag, opc t ≠ opcodeField (BitVec.ofNat 16 w)) →
    decodeTableWord nbits w = none ∧ step (s.withFetchWord nbits w) = .refused .illFormedRecord)

/-- The step over one instruction is the composition of the stage steps left of it, in every state, faults and refusals
included (R102, R120). -/
def Obligations.StepIsTheStageStepsLeft : Prop :=
  ∀ s : State, step s = stageSteps (stagesLeft s.currentStage) s

/-- The opcode table does not matter to registers, data memory, `pc` and the other non-display state: any table that
meets R74 runs every instruction to the same effect (R74, D2). -/
def Obligations.AnyAdmissibleOpcodeTableRunsAlike : Prop :=
  ∀ (o : Tag → BitVec 7) (i : Instr) (s t : State), OpcAdmissible o → exec i s = .next t →
    ∃ u : State, runInstruction (i.recordWith o) (aluOf (i.recordWith o) s) s = .next u ∧
      u.registers = t.registers ∧ u.dataMemory = t.dataMemory ∧ u.pc = t.pc ∧ u.currentStage = t.currentStage ∧
      u.aluResult = t.aluResult ∧ u.currentInstructionIndex = t.currentInstructionIndex

/-- The invariant holds at reset. -/
def Obligations.ResetMeetsTheInvariant : Prop := State.reset.Inv

/-- Every stage step keeps the invariant: the data memory canonical, the program accepted, the instruction in flight
tracked by its index, and the working registers those of that instruction (R31, R111, R121). -/
def Obligations.EveryStageStepKeepsTheInvariant : Prop :=
  ∀ s t : State, s.Inv → stageStep s = .next t → t.Inv

/-- Every step keeps the invariant. -/
def Obligations.EveryStepKeepsTheInvariant : Prop :=
  ∀ s t : State, s.Inv → step s = .next t → t.Inv

/-- From the invariant, every state whose `pc` is not negative has a successor under the stage step and under the step
(R101). -/
def Obligations.StepsAreTotalAboveNegativePc : Prop :=
  ∀ s : State, s.Inv → 0 ≤ s.pc → Result.Goes (stageStep s) ∧ Result.Goes (step s)

/-- A program without BRZ and JMP, from any index of it, takes four stage steps for each instruction left, ends in
FETCH at its end, and is then halted (R102, R230). -/
def Obligations.StraightLineProgramsHaltAfterFourStepsEach : Prop :=
  ∀ (n : Nat) (s : State), s.Inv → s.currentStage = .fetch → 0 ≤ s.pc →
    s.pc + n = s.instructionMemory.length →
    (∀ k : Int, s.pc ≤ k → k < s.instructionMemory.length →
      ∃ i : Instr, recordAt s.instructionMemory k = some i.record ∧ isTransfer i = false) →
    ∃ t : State, stageSteps (4 * n) s = .next t ∧ t.currentStage = .fetch ∧
      t.pc = s.instructionMemory.length ∧ t.isHalted = true ∧ stageSteps (4 * n + 1) s = .next t

/-- A taken BRZ with offset 0 is an endless loop: after every four stage steps the engine stands at the same
instruction, with the same registers and data memory, and is not halted (R161, R229). -/
def Obligations.TakenBrzToItselfNeverHalts : Prop :=
  ∀ (n a : Nat) (s : State), s.currentStage = .fetch → (Instr.brz a 0).wellFormed = true →
    recordAt s.instructionMemory s.pc = some (Instr.brz a 0).record → s.rd (some a) = 0 →
    ∃ t : State, stageSteps (4 * n) s = .next t ∧ t.currentStage = .fetch ∧ t.pc = s.pc ∧
      SameRegisters s t ∧ SameMemory s t ∧ t.isHalted = false

/-! ### Reset and load -/

/-- R182, R220: `reset()` gives all-zero registers, `pc = 0`, an empty data memory and FETCH from every state, a state
that is itself reset included, and keeps the instruction memory. The three working registers hold free values of Config
(log entry 2), of which this states nothing; that `reset()` keeps the instruction memory is decision D13 of the spec. -/
def Obligations.ResetIgnoresThePriorState : Prop :=
  ∀ s : State, (∀ n : Nat, s.resetCpu.rd (some n) = 0) ∧ s.resetCpu.pc = 0 ∧ s.resetCpu.dataMemory = [] ∧
    s.resetCpu.currentStage = .fetch ∧ s.resetCpu.instructionMemory = s.instructionMemory

/-- An accepted `load` replaces the program, resets the machine and establishes the invariant (R181). -/
def Obligations.LoadReplacesTheProgramAndResets : Prop :=
  ∀ (s t : State) (text : List Char), s.load text = .next t →
    t.Inv ∧ t.instructionMemory = assemble text ∧ t.pc = 0 ∧ t.dataMemory = [] ∧ t.currentStage = .fetch ∧
    ∀ n : Nat, t.rd (some n) = 0

/-- `load` refuses exactly the programs in which some line names a register above 7, and accepts every other text
(R83, R205). -/
def Obligations.LoadRefusesExactlyRegistersAboveSeven : Prop :=
  ∀ (s : State) (text : List Char),
    (s.load text = .refused .illFormedRecord ↔ ∃ r ∈ assemble text, r.indicesOk = false) ∧
    ((∀ r ∈ assemble text, r.indicesOk = true) → Result.Goes (s.load text))

/-! ### Every choice of the open parameters -/

/-- For every width, opcode table, OR mode, aliases and domains (00_scope.md R4, decisions D1 to D6, D12, D20, D23), the
stage step and the step over one instruction keep the invariant taken at those parameters. -/
def Obligations.EveryParameterChoiceKeepsTheInvariant : Prop :=
  ∀ (xlen : Nat) (p : Params) (s t : State xlen), s.Inv p →
    (stageStep s p = .next t → t.Inv p) ∧ (stepWith p s = .next t → t.Inv p)

/-- For every width and all parameters whose opcode table meets R74, with a destination in `[0, 7]`: the sums, the
difference and the immediate modulo `2^XLEN`, AND bit by bit, OR in the mode chosen, the cell of a STORE and of a LOAD, and the next `pc`
reduced to the domain chosen; `execWith` at the defaults is `exec`. -/
def Obligations.EveryParameterChoiceCompletes : Prop :=
  (∀ (i : Instr) (s : State), exec i s = execWith defaultParams i s) ∧
  ∀ (xlen : Nat) (p : Params) (s : State xlen) (d a b : Nat) (k : Int), OpcAdmissible p.opc → d < 8 →
    (∃ t, execWith p (.add d a b) s = .next t ∧ t.pc = p.pcDomain (s.pc + 1) ∧
      (t.rd (some d)).toNat = ((s.rd (some a)).toNat + (s.rd (some b)).toNat) % 2 ^ xlen) ∧
    (∃ t, execWith p (.sub d a b) s = .next t ∧ t.pc = p.pcDomain (s.pc + 1) ∧
      ((t.rd (some d)).toNat : Int) = (((s.rd (some a)).toNat : Int) - (s.rd (some b)).toNat) % 2 ^ xlen) ∧
    (∃ t, execWith p (.and d a b) s = .next t ∧ t.pc = p.pcDomain (s.pc + 1) ∧
      t.rd (some d) = s.rd (some a) &&& s.rd (some b)) ∧
    (∃ t, execWith p (.addi d a k) s = .next t ∧ t.pc = p.pcDomain (s.pc + 1) ∧
      ((t.rd (some d)).toNat : Int) = (((s.rd (some a)).toNat : Int) + k) % 2 ^ xlen) ∧
    (∃ t, execWith p (.ldi d k) s = .next t ∧ t.pc = p.pcDomain (s.pc + 1) ∧
      ((t.rd (some d)).toNat : Int) = k % 2 ^ xlen) ∧
    (∃ t, execWith p (.mov d k) s = .next t ∧ t.pc = p.pcDomain (s.pc + 1) ∧
      ((t.rd (some d)).toNat : Int) = k % 2 ^ xlen) ∧
    (∃ t, execWith p (.or d a b) s = .next t ∧ t.pc = p.pcDomain (s.pc + 1) ∧
      (p.aluOrMode = .tableLiteral → t.rd (some d) = 0) ∧
      (p.aluOrMode = .bitwiseOr → t.rd (some d) = s.rd (some a) ||| s.rd (some b))) ∧
    (∃ t, execWith p (.load d a) s = .next t ∧ t.pc = p.pcDomain (s.pc + 1) ∧
      t.rd (some d) = (Memory.cell s.dataMemory (s.rd (some a)).toNat).getD 0) ∧
    (∃ t, execWith p (.store a b) s = .next t ∧ t.pc = p.pcDomain (s.pc + 1) ∧
      Memory.cell t.dataMemory (s.rd (some a)).toNat = some (s.rd (some b))) ∧
    (∃ t, execWith p (.brz a k) s = .next t ∧
      t.pc = p.pcDomain (if s.rd (some a) = 0 then s.pc + k else s.pc + 1)) ∧
    (∃ t, execWith p (.jmp a) s = .next t ∧ t.pc = p.pcDomain ((s.rd (some a)).toNat : Int)) ∧
    (∀ i : Instr, (i = .nop ∨ ∃ text, i = .unknown text) → ∃ t, execWith p i s = .next t ∧
      t.pc = p.pcDomain (s.pc + 1) ∧ t.registers = s.registers ∧ t.dataMemory = s.dataMemory)
end

