-- ==== Sys2Proof/Laws/State.lean ====
section
/-! SUPPORT. One lemma per field per state update, true by `rfl`, so that no later proof unfolds a record update. -/

namespace Sys2Proof.Machine

variable {xlen : Nat} (s : State xlen) (p : Params)

/-! ### `State.fetched` -/

@[simp] theorem fetched_registers : s.fetched.registers = s.registers := rfl
@[simp] theorem fetched_pc : s.fetched.pc = s.pc := rfl
@[simp] theorem fetched_dataMemory : s.fetched.dataMemory = s.dataMemory := rfl
@[simp] theorem fetched_instructionMemory : s.fetched.instructionMemory = s.instructionMemory := rfl
@[simp] theorem fetched_currentStage : s.fetched.currentStage = .decode := rfl
@[simp] theorem fetched_controlSignals : s.fetched.controlSignals = s.controlSignals := rfl
@[simp] theorem fetched_aluResult : s.fetched.aluResult = s.aluResult := rfl
@[simp] theorem fetched_currentInstructionIndex : s.fetched.currentInstructionIndex = s.pc := rfl

/-! ### `State.decoded` -/

@[simp] theorem decoded_registers (r : Record) : (s.decoded r).registers = s.registers := rfl
@[simp] theorem decoded_pc (r : Record) : (s.decoded r).pc = s.pc := rfl
@[simp] theorem decoded_dataMemory (r : Record) : (s.decoded r).dataMemory = s.dataMemory := rfl
@[simp] theorem decoded_instructionMemory (r : Record) : (s.decoded r).instructionMemory = s.instructionMemory := rfl
@[simp] theorem decoded_currentStage (r : Record) : (s.decoded r).currentStage = .execute := rfl
@[simp] theorem decoded_controlSignals (r : Record) : (s.decoded r).controlSignals = signals r.binary := rfl
@[simp] theorem decoded_aluResult (r : Record) : (s.decoded r).aluResult = s.aluResult := rfl
@[simp] theorem decoded_currentInstructionIndex (r : Record) : (s.decoded r).currentInstructionIndex = s.currentInstructionIndex := rfl

/-! ### `State.executed` -/

@[simp] theorem executed_registers (v : Word xlen) : (s.executed v).registers = s.registers := rfl
@[simp] theorem executed_pc (v : Word xlen) : (s.executed v).pc = s.pc := rfl
@[simp] theorem executed_dataMemory (v : Word xlen) : (s.executed v).dataMemory = s.dataMemory := rfl
@[simp] theorem executed_instructionMemory (v : Word xlen) : (s.executed v).instructionMemory = s.instructionMemory := rfl
@[simp] theorem executed_currentStage (v : Word xlen) : (s.executed v).currentStage = .writeBack := rfl
@[simp] theorem executed_controlSignals (v : Word xlen) : (s.executed v).controlSignals = s.controlSignals := rfl
@[simp] theorem executed_aluResult (v : Word xlen) : (s.executed v).aluResult = v := rfl
@[simp] theorem executed_currentInstructionIndex (v : Word xlen) : (s.executed v).currentInstructionIndex = s.currentInstructionIndex := rfl

/-! ### `State.memWrite` -/

@[simp] theorem memWrite_registers (a v : Word xlen) : (s.memWrite a v).registers = s.registers := rfl
@[simp] theorem memWrite_pc (a v : Word xlen) : (s.memWrite a v).pc = s.pc := rfl
@[simp] theorem memWrite_dataMemory (a v : Word xlen) : (s.memWrite a v).dataMemory = Memory.put s.dataMemory a.toNat v := rfl
@[simp] theorem memWrite_instructionMemory (a v : Word xlen) : (s.memWrite a v).instructionMemory = s.instructionMemory := rfl
@[simp] theorem memWrite_currentStage (a v : Word xlen) : (s.memWrite a v).currentStage = s.currentStage := rfl
@[simp] theorem memWrite_controlSignals (a v : Word xlen) : (s.memWrite a v).controlSignals = s.controlSignals := rfl
@[simp] theorem memWrite_aluResult (a v : Word xlen) : (s.memWrite a v).aluResult = s.aluResult := rfl
@[simp] theorem memWrite_currentInstructionIndex (a v : Word xlen) : (s.memWrite a v).currentInstructionIndex = s.currentInstructionIndex := rfl

/-! ### `State.setReg` -/

@[simp] theorem setReg_registers (d : Nat) (v : Word xlen) : (s.setReg d v).registers = s.registers.setIfInBounds d v := rfl
@[simp] theorem setReg_pc (d : Nat) (v : Word xlen) : (s.setReg d v).pc = s.pc := rfl
@[simp] theorem setReg_dataMemory (d : Nat) (v : Word xlen) : (s.setReg d v).dataMemory = s.dataMemory := rfl
@[simp] theorem setReg_instructionMemory (d : Nat) (v : Word xlen) : (s.setReg d v).instructionMemory = s.instructionMemory := rfl
@[simp] theorem setReg_currentStage (d : Nat) (v : Word xlen) : (s.setReg d v).currentStage = s.currentStage := rfl
@[simp] theorem setReg_controlSignals (d : Nat) (v : Word xlen) : (s.setReg d v).controlSignals = s.controlSignals := rfl
@[simp] theorem setReg_aluResult (d : Nat) (v : Word xlen) : (s.setReg d v).aluResult = s.aluResult := rfl
@[simp] theorem setReg_currentInstructionIndex (d : Nat) (v : Word xlen) : (s.setReg d v).currentInstructionIndex = s.currentInstructionIndex := rfl

/-! ### `State.pcStep` -/

@[simp] theorem pcStep_registers (r : Record) : (s.pcStep r p).registers = s.registers := rfl
@[simp] theorem pcStep_pc (r : Record) : (s.pcStep r p).pc = p.pcDomain (s.nextPc r) := rfl
@[simp] theorem pcStep_dataMemory (r : Record) : (s.pcStep r p).dataMemory = s.dataMemory := rfl
@[simp] theorem pcStep_instructionMemory (r : Record) : (s.pcStep r p).instructionMemory = s.instructionMemory := rfl
@[simp] theorem pcStep_currentStage (r : Record) : (s.pcStep r p).currentStage = .fetch := rfl
@[simp] theorem pcStep_controlSignals (r : Record) : (s.pcStep r p).controlSignals = s.controlSignals := rfl
@[simp] theorem pcStep_aluResult (r : Record) : (s.pcStep r p).aluResult = s.aluResult := rfl
@[simp] theorem pcStep_currentInstructionIndex (r : Record) : (s.pcStep r p).currentInstructionIndex = s.currentInstructionIndex := rfl

/-! ### The parameters' defaults -/

@[simp] theorem defaultParams_opc : defaultParams.opc = opc := rfl
@[simp] theorem defaultParams_aluOrMode : defaultParams.aluOrMode = aluOrMode := rfl
@[simp] theorem defaultParams_aliases : defaultParams.aliases = mnemonicAliases := rfl
@[simp] theorem defaultParams_pcDomain (k : Int) : defaultParams.pcDomain k = k := rfl
@[simp] theorem defaultParams_immDomain (k : Int) : defaultParams.immDomain k = k := rfl
@[simp] theorem defaultParams_progMaxLen : defaultParams.progMaxLen = none := rfl

/-! ### `State.resetCpu` -/

@[simp] theorem resetCpu_registers : s.resetCpu.registers = Vector.replicate Config.nreg 0 := rfl
@[simp] theorem resetCpu_pc : s.resetCpu.pc = 0 := rfl
@[simp] theorem resetCpu_dataMemory : s.resetCpu.dataMemory = [] := rfl
@[simp] theorem resetCpu_instructionMemory : s.resetCpu.instructionMemory = s.instructionMemory := rfl
@[simp] theorem resetCpu_currentStage : s.resetCpu.currentStage = .fetch := rfl
@[simp] theorem resetCpu_controlSignals : s.resetCpu.controlSignals = Config.resetSignals := rfl
@[simp] theorem resetCpu_aluResult : s.resetCpu.aluResult = Config.resetAluResult xlen := rfl
@[simp] theorem resetCpu_currentInstructionIndex : s.resetCpu.currentInstructionIndex = Config.resetInstructionIndex := rfl

end Sys2Proof.Machine
end

