-- ==== Sys2Proof/Laws/Alu.lean ====
section
/-! SUPPORT. The laws of `wrap` and of the ALU's arithmetic (spec/00_scope.md R8, spec/41_alu_register.md R135). -/

namespace Sys2Proof

theorem two_pow_xlen : 2 ^ Config.xlen = 65536 := rfl

variable {xlen : Nat}

/-- `wrap(v)` is `v mod 2^XLEN`. -/
theorem toNat_wrap_width (v : Int) : ((wrap v : Word xlen).toNat : Int) = v % 2 ^ xlen := by
  simp only [wrap, BitVec.toNat_ofInt]
  have h : (0 : Int) < 2 ^ xlen := by positivity
  have := Int.emod_nonneg v (Int.ne_of_gt h)
  push_cast
  omega

/-- `wrap(v)` is `v mod 2^16` at the default width. -/
theorem toNat_wrap (v : Int) : ((wrap v : Word).toNat : Int) = v % 65536 := toNat_wrap_width v

/-- A word is below `2^16` at the default width. -/
theorem toNat_lt (w : Word) : w.toNat < 65536 := w.isLt

namespace Machine

/-- The ALU's sums and difference are those of the word (R110, R135). -/
theorem aluAdd_eq (a b : Word xlen) : aluAdd a b = a + b := by
  simp [aluAdd, wrap, BitVec.ofInt_add]

theorem aluSub_eq (a b : Word xlen) : aluSub a b = a - b := by
  simp [aluSub, wrap, BitVec.sub_eq_add_neg, Int.sub_eq_add_neg, BitVec.ofInt_add, BitVec.ofInt_neg]

theorem aluAddImmediate_eq (a : Word xlen) (k : Int) : aluAddImmediate a k = a + BitVec.ofInt xlen k := by
  simp [aluAddImmediate, wrap, BitVec.ofInt_add]

theorem toNat_aluAdd (a b : Word) : ((aluAdd a b).toNat : Int) = ((a.toNat : Int) + b.toNat) % 65536 := toNat_wrap _

theorem toNat_aluSub (a b : Word) : ((aluSub a b).toNat : Int) = ((a.toNat : Int) - b.toNat) % 65536 := toNat_wrap _

theorem toNat_aluAddImmediate (a : Word) (k : Int) :
    ((aluAddImmediate a k).toNat : Int) = ((a.toNat : Int) + k) % 65536 := toNat_wrap _

theorem toNat_aluImmediate (k : Int) : ((aluImmediate k : Word).toNat : Int) = k % 65536 := toNat_wrap _

end Machine

end Sys2Proof
end

