-- ==== Sys2Proof/Laws/Memory.lean ====
section
/-! SUPPORT. The laws of the data memory (spec/20_memory.md R25, R46, R47) and of the register file. -/

namespace Sys2Proof.Machine

variable {xlen : Nat}

/-! ### Cells -/

@[simp] theorem cell_nil (a : Nat) : Memory.cell ([] : Memory xlen) a = none := rfl

theorem cell_put_same (m : Memory xlen) (a : Nat) (v : Word xlen) : Memory.cell (Memory.put m a v) a = some v := by
  induction m with
  | nil => simp [Memory.put, Memory.cell]
  | cons p m ih =>
    obtain ⟨k, w⟩ := p
    simp only [Memory.put]
    split
    · simp [Memory.cell]
    · split
      · simp [Memory.cell]
      · rename_i h
        simp [Memory.cell, h, ih]

theorem cell_put_other (m : Memory xlen) {a b : Nat} (v : Word xlen) (h : b ≠ a) :
    Memory.cell (Memory.put m a v) b = Memory.cell m b := by
  induction m with
  | nil => simp [Memory.put, Memory.cell, h.symm]
  | cons p m ih =>
    obtain ⟨k, w⟩ := p
    simp only [Memory.put]
    split
    · simp [Memory.cell, h.symm]
    · split
      · rename_i hk
        subst hk
        simp [Memory.cell, h.symm]
      · simp [Memory.cell, ih]

/-- What a write leaves at every address: the value there, everything else as before (R46). -/
theorem cell_put (m : Memory xlen) (a b : Nat) (v : Word xlen) :
    Memory.cell (Memory.put m a v) b = if b = a then some v else Memory.cell m b := by
  split
  · rename_i h; subst h; exact cell_put_same m b v
  · exact cell_put_other m v ‹_›

/-! ### The canonical form -/

/-- A lower bound on the first key of a memory. -/
theorem risesAbove_put (lo : Option Nat) (m : Memory xlen) (a : Nat) (v : Word xlen)
    (h : Memory.risesAbove lo m = true) (ha : a < 2 ^ xlen) (hlo : ∀ l, lo = some l → l < a) :
    Memory.risesAbove lo (Memory.put m a v) = true := by
  induction m generalizing lo with
  | nil =>
    cases lo with
    | none => simpa [Memory.put, Memory.risesAbove] using ha
    | some l => simpa [Memory.put, Memory.risesAbove] using ⟨hlo l rfl, ha⟩
  | cons p m ih =>
    obtain ⟨k, w⟩ := p
    have hk : k < 2 ^ xlen ∧ Memory.risesAbove (some k) m = true := by
      cases lo <;> simp [Memory.risesAbove] at h ⊢ <;> simp [h]
    have hlk : ∀ l, lo = some l → l < k := by
      rintro l rfl
      simp [Memory.risesAbove] at h
      exact h.1.1
    simp only [Memory.put]
    split
    · rename_i hak
      cases lo with
      | none => simpa [Memory.risesAbove, hak, hk.2] using ⟨ha, hk.1⟩
      | some l => simpa [Memory.risesAbove, hak, hk.2, hlo l rfl] using ⟨ha, hk.1⟩
    · split
      · rename_i hka
        subst hka
        cases lo with
        | none => simpa [Memory.risesAbove, hk.2] using ha
        | some l => simpa [Memory.risesAbove, hk.2, hlo l rfl] using ha
      · rename_i hnlt hne
        have := ih (some k) hk.2 (by rintro l ⟨⟩; omega)
        cases lo with
        | none => simpa [Memory.risesAbove, this] using hk.1
        | some l => simpa [Memory.risesAbove, this, hlk l rfl] using hk.1

/-- A write keeps the canonical form. -/
theorem wf_put (m : Memory xlen) (a : Nat) (v : Word xlen) (h : Memory.wf m = true) (ha : a < 2 ^ xlen) :
    Memory.wf (Memory.put m a v) = true :=
  risesAbove_put none m a v h ha (by simp)

/-- A memory write of the machine keeps the canonical form. -/
theorem memWrite_wf (s : State xlen) (a v : Word xlen) (h : Memory.wf s.dataMemory = true) :
    Memory.wf (s.memWrite a v).dataMemory = true :=
  wf_put _ _ _ h a.isLt

@[simp] theorem reset_memory_wf : Memory.wf State.reset.dataMemory = true := rfl

/-- In a canonical memory no key stands at or below the bound. -/
theorem cell_of_risesAbove (lo : Nat) (m : Memory xlen) (h : Memory.risesAbove (some lo) m = true) (a : Nat) (ha : a ≤ lo) :
    Memory.cell m a = none := by
  induction m generalizing lo with
  | nil => rfl
  | cons p m ih =>
    obtain ⟨k, w⟩ := p
    simp [Memory.risesAbove] at h
    have hk : k ≠ a := by omega
    simp [Memory.cell, hk]
    exact ih k h.2 (by omega)

theorem risesAbove_none_of_some (lo : Nat) (m : Memory xlen) (h : Memory.risesAbove (some lo) m = true) :
    Memory.risesAbove none m = true := by
  cases m with
  | nil => rfl
  | cons p m => obtain ⟨k, w⟩ := p; simp [Memory.risesAbove] at h ⊢; exact ⟨h.1.2, h.2⟩

/-- Canonical memories with the same cells are equal lists. -/
theorem memory_ext (m m' : Memory xlen) (h : Memory.wf m = true) (h' : Memory.wf m' = true)
    (hc : ∀ a, Memory.cell m a = Memory.cell m' a) : m = m' := by
  induction m generalizing m' with
  | nil =>
    cases m' with
    | nil => rfl
    | cons p m' => obtain ⟨k, w⟩ := p; have := hc k; simp [Memory.cell] at this
  | cons p m ih =>
    obtain ⟨k, w⟩ := p
    cases m' with
    | nil => have := hc k; simp [Memory.cell] at this
    | cons p' m' =>
      obtain ⟨k', w'⟩ := p'
      simp [Memory.wf, Memory.risesAbove] at h h'
      have hkk : k = k' := by
        have h1 := hc k
        have h2 := hc k'
        by_contra hne
        simp [Memory.cell, hne, Ne.symm hne] at h1 h2
        by_cases hlt : k ≤ k'
        · rw [cell_of_risesAbove k' m' h'.2 k hlt] at h1; simp at h1
        · rw [cell_of_risesAbove k m h.2 k' (by omega)] at h2; simp at h2
      subst hkk
      have hw := hc k
      simp [Memory.cell] at hw
      subst hw
      refine congrArg _ (ih m' (risesAbove_none_of_some k m h.2) (risesAbove_none_of_some k m' h'.2) fun a => ?_)
      by_cases ha : k = a
      · subst ha
        rw [cell_of_risesAbove k m h.2 k le_rfl, cell_of_risesAbove k m' h'.2 k le_rfl]
      · simpa [Memory.cell, ha] using hc a

/-! ### The register file -/

@[simp] theorem rd_none (s : State xlen) : s.rd none = 0 := rfl

theorem rd_of_lt (s : State xlen) {n : Nat} (h : n < Config.nreg) : s.rd (some n) = s.registers[n] := by
  simp [State.rd, h]

/-- An index outside `[0, 7]` reads 0 (R9). -/
theorem rd_of_ge (s : State xlen) {n : Nat} (h : ¬ n < Config.nreg) : s.rd (some n) = 0 := by
  have : s.registers[n]? = none := by simp only [Vector.getElem?_eq_none_iff]; omega
  simp [State.rd, this]

/-- A register read after a register write. -/
theorem rd_setReg (s : State xlen) {d : Nat} (hd : d < Config.nreg) (v : Word xlen) (n : Nat) :
    (s.setReg d v).rd (some n) = if n = d then v else s.rd (some n) := by
  simp only [State.rd, setReg_registers, Vector.getElem?_setIfInBounds]
  by_cases h : d = n
  · subst h; simp [hd]
  · simp [h, Ne.symm h]

/-- `rd` depends on the register file alone. -/
theorem rd_congr {s t : State xlen} (h : s.registers = t.registers) (f : Option Nat) : s.rd f = t.rd f := by
  cases f <;> simp [State.rd, h]

@[simp] theorem rd_fetched (s : State xlen) (f : Option Nat) : s.fetched.rd f = s.rd f := rd_congr rfl f
@[simp] theorem rd_decoded (s : State xlen) (r : Record) (f : Option Nat) : (s.decoded r).rd f = s.rd f := rd_congr rfl f
@[simp] theorem rd_executed (s : State xlen) (v : Word xlen) (f : Option Nat) : (s.executed v).rd f = s.rd f := rd_congr rfl f
@[simp] theorem rd_memWrite (s : State xlen) (a v : Word xlen) (f : Option Nat) : (s.memWrite a v).rd f = s.rd f := rd_congr rfl f
@[simp] theorem rd_pcStep (s : State xlen) (r : Record) (p : Params) (f : Option Nat) : (s.pcStep r p).rd f = s.rd f := rd_congr rfl f

/-- Two register files that read alike at every index are equal. -/
theorem registers_ext {s t : State xlen} (h : ∀ n, s.rd (some n) = t.rd (some n)) : s.registers = t.registers := by
  ext i hi
  rw [← rd_of_lt s hi, ← rd_of_lt t hi, h]

/-- `aluOf` depends on the register file alone. -/
theorem aluOf_congr (r : Record) (mode : AluOrMode) {s t : State xlen} (h : s.registers = t.registers) :
    aluOf r s mode = aluOf r t mode := by
  have := rd_congr h
  cases hr : r.opcode <;> simp [aluOf, hr, this]

end Sys2Proof.Machine
end

