-- ==== Sys2Proof/Laws/Encoding.lean ====
section
/-! SUPPORT. The laws of the encoder and of the control signals (spec/30_encoding.md R60 to R76,
spec/40_stage_machine.md R106 to R108). -/

namespace Sys2Proof

/-! ### Three-bit fields -/

theorem field3_toNat_int (v : Int) : ((field3 v).toNat : Int) = v % 8 := by
  simp only [field3, BitVec.toNat_ofInt]
  omega

theorem field3_natCast (n : Nat) : (field3 n).toNat = n % 8 := by
  have := field3_toNat_int n
  omega

/-! ### The fields of an encoded word -/

theorem opcodeField_encodeRecordWith (o : Tag → BitVec 7) (r : Record) :
    opcodeField (encodeRecordWith o r) = o r.opcode := by
  apply BitVec.eq_of_getLsbD_eq
  intro i hi
  simp only [opcodeField, encodeRecordWith, BitVec.getLsbD_extractLsb', BitVec.getLsbD_append]
  have h1 : ¬ 9 + i < 3 := by omega
  have h2 : ¬ 9 + i - 3 < 3 := by omega
  have h3 : ¬ 9 + i - 3 - 3 < 3 := by omega
  have h4 : 9 + i - 3 - 3 - 3 = i := by omega
  simp [h1, h2, h3, h4, hi]

theorem destField_encodeRecordWith (o : Tag → BitVec 7) (r : Record) :
    destField (encodeRecordWith o r) = regField r.dest := by
  apply BitVec.eq_of_getLsbD_eq
  intro i hi
  simp only [destField, encodeRecordWith, BitVec.getLsbD_extractLsb', BitVec.getLsbD_append]
  have h1 : ¬ 6 + i < 3 := by omega
  have h2 : ¬ 6 + i - 3 < 3 := by omega
  have h4 : 6 + i - 3 - 3 = i := by omega
  simp [h1, h2, h4, hi]

theorem src1Field_encodeRecordWith (o : Tag → BitVec 7) (r : Record) :
    src1Field (encodeRecordWith o r) = regField r.src1 := by
  apply BitVec.eq_of_getLsbD_eq
  intro i hi
  simp only [src1Field, encodeRecordWith, BitVec.getLsbD_extractLsb', BitVec.getLsbD_append]
  have h1 : ¬ 3 + i < 3 := by omega
  have h4 : 3 + i - 3 = i := by omega
  simp [h1, h4, hi]

theorem thirdField_encodeRecordWith (o : Tag → BitVec 7) (r : Record) :
    thirdField (encodeRecordWith o r) = thirdOf r := by
  apply BitVec.eq_of_getLsbD_eq
  intro i hi
  simp only [thirdField, encodeRecordWith, BitVec.getLsbD_extractLsb', BitVec.getLsbD_append]
  simp only [hi, decide_true, Nat.zero_add, Bool.true_and, if_true]

/-! ### Bits of the opcode field (R106) -/

theorem getLsbD_opcodeField (w : BitVec 16) {i : Nat} (h : i < 7) :
    (opcodeField w).getLsbD i = w.getLsbD (9 + i) := by
  simp [opcodeField, h]

/-- The control signals as a function of the opcode field (R106). -/
theorem signals_of_opcodeField (w : BitVec 16) :
    Machine.signals w =
      { PL := (opcodeField w).getLsbD 6 && (opcodeField w).getLsbD 5
        JB := (opcodeField w).getLsbD 4
        MB := (opcodeField w).getLsbD 6
        MD := (opcodeField w).getLsbD 4
        MW := (opcodeField w).getLsbD 5 && !(opcodeField w).getLsbD 6
        RW := !(opcodeField w).getLsbD 5
        BC := (opcodeField w).getLsbD 0 } := by
  simp only [getLsbD_opcodeField, Machine.signals, show (6 : Nat) < 7 by omega, show (5 : Nat) < 7 by omega,
    show (4 : Nat) < 7 by omega, show (0 : Nat) < 7 by omega]

/-- The control signals of the record an instruction assembles to, under an opcode table. -/
theorem signals_recordWith (o : Tag → BitVec 7) (i : Instr) :
    Machine.signals (i.recordWith o).binary =
      { PL := (o i.fields.opcode).getLsbD 6 && (o i.fields.opcode).getLsbD 5
        JB := (o i.fields.opcode).getLsbD 4
        MB := (o i.fields.opcode).getLsbD 6
        MD := (o i.fields.opcode).getLsbD 4
        MW := (o i.fields.opcode).getLsbD 5 && !(o i.fields.opcode).getLsbD 6
        RW := !(o i.fields.opcode).getLsbD 5
        BC := (o i.fields.opcode).getLsbD 0 } := by
  rw [signals_of_opcodeField]
  simp [Instr.recordWith, opcodeField_encodeRecordWith]

@[simp] theorem fields_opcode (i : Instr) : i.fields.opcode = i.tag := by cases i <;> rfl

/-- The control signals of an assembled instruction under the default table (R75): those of its opcode pattern. -/
theorem signals_record (i : Instr) :
    Machine.signals i.record.binary =
      { PL := (opc i.tag).getLsbD 6 && (opc i.tag).getLsbD 5
        JB := (opc i.tag).getLsbD 4
        MB := (opc i.tag).getLsbD 6
        MD := (opc i.tag).getLsbD 4
        MW := (opc i.tag).getLsbD 5 && !(opc i.tag).getLsbD 6
        RW := !(opc i.tag).getLsbD 5
        BC := (opc i.tag).getLsbD 0 } := by
  rw [Instr.record, signals_recordWith, fields_opcode]

/-- The default table meets what the source forces (R74). -/
theorem opc_admissible : OpcAdmissible opc := by
  simp [OpcAdmissible, topBitsAre, opc]

/-! ### Records of instructions -/

/-- A record's components other than `binary` are those of its instruction's fields. -/
@[simp] theorem recordWith_opcode (o : Tag → BitVec 7) (i : Instr) : (i.recordWith o).opcode = i.tag := by
  simp [Instr.recordWith]
@[simp] theorem recordWith_dest (o : Tag → BitVec 7) (i : Instr) : (i.recordWith o).dest = i.fields.dest := rfl
@[simp] theorem recordWith_src1 (o : Tag → BitVec 7) (i : Instr) : (i.recordWith o).src1 = i.fields.src1 := rfl
@[simp] theorem recordWith_src2 (o : Tag → BitVec 7) (i : Instr) : (i.recordWith o).src2 = i.fields.src2 := rfl
@[simp] theorem recordWith_immediate (o : Tag → BitVec 7) (i : Instr) :
    (i.recordWith o).immediate = i.fields.immediate := rfl
@[simp] theorem recordWith_address (o : Tag → BitVec 7) (i : Instr) : (i.recordWith o).address = i.fields.address := rfl

/-- The word of a record does not depend on its `binary` (R65). -/
theorem encodeRecordWith_binary (o : Tag → BitVec 7) (r : Record) (b : BitVec 16) :
    encodeRecordWith o { r with binary := b } = encodeRecordWith o r := rfl

@[simp] theorem record_binary (i : Instr) : i.record.binary = encode i := rfl

/-- An assembled record meets R27 (ii) under its opcode table. -/
@[simp] theorem recordWith_binaryOk (o : Tag → BitVec 7) (i : Instr) : (i.recordWith o).binaryOk o = true := by
  simp only [Record.binaryOk, Instr.recordWith, encodeRecordWith_binary, beq_self_eq_true]

/-- An assembled record meets R27 (i). -/
@[simp] theorem recordWith_layoutOk (o : Tag → BitVec 7) (i : Instr) : (i.recordWith o).layoutOk = true := by
  cases i <;> rfl

/-- An assembled record is well-formed exactly when its instruction is. -/
theorem recordWith_wellFormed (o : Tag → BitVec 7) (i : Instr) : (i.recordWith o).wellFormed o = i.wellFormed := by
  simp only [Record.wellFormed, recordWith_layoutOk, recordWith_binaryOk, Bool.and_self, Bool.true_and]
  cases i <;>
    simp [Record.indicesOk, Instr.wellFormed, Instr.recordWith, Instr.fields, regFieldOk, Bool.and_assoc]

/-- The instruction of an assembled record is the one it was assembled from. -/
@[simp] theorem recordWith_toInstr (o : Tag → BitVec 7) (i : Instr) : (i.recordWith o).toInstr = i := by
  cases i <;> rfl

/-- A well-formed record is the assembled record of its instruction. -/
theorem toInstr_recordWith {o : Tag → BitVec 7} (r : Record) (h : r.wellFormed o = true) : r.toInstr.recordWith o = r := by
  obtain ⟨t, d, a, b, k, c, w⟩ := r
  simp only [Record.wellFormed, Record.layoutOk, Record.binaryOk, Bool.and_eq_true, beq_iff_eq] at h
  obtain ⟨⟨hl, hb⟩, -⟩ := h
  replace hb : w = encodeRecordWith o ⟨t, d, a, b, k, c, 0#16⟩ := hb
  subst hb
  cases t <;> cases d <;> cases a <;> cases b <;> cases k <;> cases c <;>
    simp [Record.layout, Tag.layout] at hl <;> rfl

/-- `instr?` answers exactly the instruction of a well-formed record. -/
theorem instr?_eq_some_with {o : Tag → BitVec 7} {r : Record} {i : Instr} (h : r.instr? o = some i) :
    r = i.recordWith o ∧ i.wellFormed = true := by
  simp only [Record.instr?] at h
  split at h
  · rename_i hw
    cases h
    have := toInstr_recordWith r hw
    exact ⟨this.symm, by rw [← recordWith_wellFormed o, this]; exact hw⟩
  · cases h

theorem instr?_eq_none {o : Tag → BitVec 7} {r : Record} (h : r.instr? o = none) : r.wellFormed o = false := by
  simpa [Record.instr?] using h

theorem instr?_recordWith (o : Tag → BitVec 7) {i : Instr} (h : i.wellFormed = true) :
    (i.recordWith o).instr? o = some i := by
  simp [Record.instr?, recordWith_wellFormed, h]

/-! ### The same for the default opcode table -/

@[simp] theorem record_binaryOk (i : Instr) : i.record.binaryOk = true := recordWith_binaryOk opc i
@[simp] theorem record_layoutOk (i : Instr) : i.record.layoutOk = true := recordWith_layoutOk opc i
theorem record_wellFormed (i : Instr) : i.record.wellFormed = i.wellFormed := recordWith_wellFormed opc i
@[simp] theorem record_toInstr (i : Instr) : i.record.toInstr = i := recordWith_toInstr opc i
theorem toInstr_record (r : Record) (h : r.wellFormed = true) : r.toInstr.record = r := toInstr_recordWith r h
theorem instr?_eq_some {r : Record} {i : Instr} (h : r.instr? = some i) : r = i.record ∧ i.wellFormed = true :=
  instr?_eq_some_with h
theorem instr?_record {i : Instr} (h : i.wellFormed = true) : i.record.instr? = some i := instr?_recordWith opc h

end Sys2Proof
end

