-- ==== Sys2Proof/Laws/Run.lean ====
section
/-! SUPPORT. What WRITE_BACK and one whole instruction can do (spec/40_stage_machine.md R112 to R120): said once, cited
by every proof about an instruction. -/

namespace Sys2Proof.Machine

variable {xlen : Nat}

/-- Every meaning is `runInstruction` of the instruction's record and its ALU value (R110, R120). -/
theorem execWith_eq_run (p : Params) (i : Instr) (s : State xlen) :
    execWith p i s = runInstruction (i.recordWith p.opc) (aluOf (i.recordWith p.opc) s p.aluOrMode) s p := by
  cases i <;> rfl

/-- `exec` is the meaning at the defaults of the parameters. -/
theorem exec_eq_execWith (i : Instr) (s : State) : exec i s = execWith defaultParams i s := by
  cases i <;> rfl

theorem exec_eq_run (i : Instr) (s : State) : exec i s = runInstruction i.record (aluOf i.record s) s := by
  cases i <;> rfl

/-- The state WRITE_BACK starts from when a whole instruction runs. -/
def beforeWriteBack (r : Record) (value : Word xlen) (s : State xlen) : State xlen := (s.fetched.decoded r).executed value

@[simp] theorem beforeWriteBack_registers (r : Record) (v : Word xlen) (s : State xlen) :
    (beforeWriteBack r v s).registers = s.registers := rfl
@[simp] theorem beforeWriteBack_pc (r : Record) (v : Word xlen) (s : State xlen) : (beforeWriteBack r v s).pc = s.pc := rfl
@[simp] theorem beforeWriteBack_dataMemory (r : Record) (v : Word xlen) (s : State xlen) :
    (beforeWriteBack r v s).dataMemory = s.dataMemory := rfl
@[simp] theorem beforeWriteBack_instructionMemory (r : Record) (v : Word xlen) (s : State xlen) :
    (beforeWriteBack r v s).instructionMemory = s.instructionMemory := rfl
@[simp] theorem beforeWriteBack_currentStage (r : Record) (v : Word xlen) (s : State xlen) :
    (beforeWriteBack r v s).currentStage = .writeBack := rfl
@[simp] theorem beforeWriteBack_controlSignals (r : Record) (v : Word xlen) (s : State xlen) :
    (beforeWriteBack r v s).controlSignals = signals r.binary := rfl
@[simp] theorem beforeWriteBack_aluResult (r : Record) (v : Word xlen) (s : State xlen) :
    (beforeWriteBack r v s).aluResult = v := rfl
@[simp] theorem beforeWriteBack_currentInstructionIndex (r : Record) (v : Word xlen) (s : State xlen) :
    (beforeWriteBack r v s).currentInstructionIndex = s.pc := rfl
@[simp] theorem rd_beforeWriteBack (r : Record) (v : Word xlen) (s : State xlen) (f : Option Nat) :
    (beforeWriteBack r v s).rd f = s.rd f := rd_congr rfl f
@[simp] theorem memRead_beforeWriteBack (r : Record) (v : Word xlen) (s : State xlen) (a : Word xlen) :
    (beforeWriteBack r v s).memRead a = s.memRead a := rfl

theorem runInstruction_eq (r : Record) (v : Word xlen) (s : State xlen) (p : Params) :
    runInstruction r v s p = (beforeWriteBack r v s).writeBack r p := rfl

/-! ### WRITE_BACK by class of control signals (R108, R119) -/

/-- `RW` alone, `dest` set to an index in `[0, 7]`: the register receives the write-back mux's value. -/
theorem writeBack_register {s : State xlen} {p : Params} {r : Record} {d : Nat} (hRW : s.controlSignals.RW = true)
    (hMW : s.controlSignals.MW = false) (hd : r.dest = some d) (hlt : d < Config.nreg) :
    s.writeBack r p = .next ((s.setReg d s.writeData).pcStep r p) := by
  simp [State.writeBack, State.storeStep, State.registerStep, State.writeDest, hRW, hMW, hd, hlt]

/-- `RW` alone, `dest` set to an index above 7: refused (30_encoding.md R83). -/
theorem writeBack_register_refused {s : State xlen} {p : Params} {r : Record} {d : Nat} (hRW : s.controlSignals.RW = true)
    (hMW : s.controlSignals.MW = false) (hd : r.dest = some d) (hlt : ¬ d < Config.nreg) :
    s.writeBack r p = .refused .illFormedRecord := by
  simp [State.writeBack, State.storeStep, State.registerStep, State.writeDest, hRW, hMW, hd, hlt]

/-- No memory write and nothing to write in the register file: only `pc` and the stage change. -/
theorem writeBack_pc {s : State xlen} {p : Params} {r : Record} (hMW : s.controlSignals.MW = false)
    (h : s.controlSignals.RW = false ∨ r.dest = none) : s.writeBack r p = .next (s.pcStep r p) := by
  rcases h with h | h <;>
    cases hRW : s.controlSignals.RW <;>
      simp_all [State.writeBack, State.storeStep, State.registerStep, State.writeDest]

/-- `MW` alone: the cell at the ALU result receives `src2`. -/
theorem writeBack_store {s : State xlen} {p : Params} {r : Record} (hMW : s.controlSignals.MW = true)
    (hRW : s.controlSignals.RW = false) :
    s.writeBack r p = .next ((s.memWrite s.aluResult (s.rd r.src2)).pcStep r p) := by
  simp [State.writeBack, State.storeStep, State.registerStep, hRW, hMW]

/-! ### The PC mux -/

theorem nextPc_sequential {s : State xlen} {r : Record} (h : s.controlSignals.PL = false) : s.nextPc r = s.pc + 1 := by
  simp [State.nextPc, h]

theorem nextPc_jump {s : State xlen} {r : Record} (h : s.controlSignals.PL = true) (hj : s.controlSignals.JB = true) :
    s.nextPc r = (s.rd r.src1).toNat := by
  simp [State.nextPc, h, hj]

theorem nextPc_branch {s : State xlen} {r : Record} (h : s.controlSignals.PL = true) (hj : s.controlSignals.JB = false) :
    s.nextPc r = if s.aluResult = 0 then s.pc + valueOf r.address else s.pc + 1 := by
  simp [State.nextPc, h, hj, isZero]

/-! ### What an admissible opcode table forces, by kind of instruction (R74) -/

theorem admissible_register {o : Tag → BitVec 7} (ho : OpcAdmissible o) {i : Instr} {d : Nat}
    (hi : writtenRegister i = some d) :
    (o i.tag).getLsbD 5 = false ∧ (o i.tag).getLsbD 4 = decide (i.tag = .load) := by
  obtain ⟨h1, h2, h3, h4, -, -, -, h6, h7, h8, h9, -, -⟩ := ho
  cases i with
  | add => exact ⟨by rw [Instr.tag, h1]; rfl, by rw [Instr.tag, h1]; rfl⟩
  | sub => exact h6
  | and => exact h7
  | or => exact h8
  | addi => exact h9
  | ldi => exact h2
  | mov => simp only [Instr.tag, h3]; exact h2
  | load => exact h4
  | _ => cases hi

theorem admissible_no_store {o : Tag → BitVec 7} (ho : OpcAdmissible o) {i : Instr}
    (hi : writtenRegister i = none) (hs : ∀ a b, i ≠ .store a b) :
    ((o i.tag).getLsbD 5 && !(o i.tag).getLsbD 6) = false ∧
      ((!(o i.tag).getLsbD 5) = false ∨ i.fields.dest = none) := by
  obtain ⟨-, -, -, -, -, ⟨b1, b2, -⟩, ⟨j1, j2, -⟩, -, -, -, -, hn, hu⟩ := ho
  cases i with
  | brz => exact ⟨by simp only [Instr.tag, b1, Bool.not_true, Bool.and_false], .inl (by simp only [Instr.tag, b2, Bool.not_true])⟩
  | jmp => exact ⟨by simp only [Instr.tag, j1, Bool.not_true, Bool.and_false], .inl (by simp only [Instr.tag, j2, Bool.not_true])⟩
  | nop => exact ⟨by simp only [Instr.tag, hn, Bool.false_and], .inr rfl⟩
  | unknown => exact ⟨by rw [Instr.tag, hu]; rfl, .inr rfl⟩
  | store a b => exact absurd rfl (hs a b)
  | _ => cases hi

theorem admissible_sequential {o : Tag → BitVec 7} (ho : OpcAdmissible o) {i : Instr} (hi : isTransfer i = false) :
    ((o i.tag).getLsbD 6 && (o i.tag).getLsbD 5) = false := by
  obtain ⟨h1, h2, h3, h4, h5, -, -, h6, h7, h8, h9, hn, hu⟩ := ho
  cases i with
  | add => simp only [Instr.tag, h1]; decide
  | sub => simp only [Instr.tag, h6, Bool.and_false]
  | and => simp only [Instr.tag, h7, Bool.and_false]
  | or => simp only [Instr.tag, h8, Bool.and_false]
  | addi => simp only [Instr.tag, h9, Bool.and_false]
  | ldi => simp only [Instr.tag, h2, Bool.and_false]
  | mov => simp only [Instr.tag, h3, h2, Bool.and_false]
  | load => simp only [Instr.tag, h4, Bool.and_false]
  | store => simp only [Instr.tag, h5, Bool.false_and]
  | nop => simp only [Instr.tag, hn, Bool.and_false]
  | unknown => simp only [Instr.tag, hu]; decide
  | _ => cases hi

/-! ### One whole instruction, under any admissible opcode table -/

/-- The signals of a whole instruction in WRITE_BACK. -/
theorem beforeWriteBack_signals (o : Tag → BitVec 7) (i : Instr) (v : Word xlen) (s : State xlen) :
    (beforeWriteBack (i.recordWith o) v s).controlSignals =
      { PL := (o i.tag).getLsbD 6 && (o i.tag).getLsbD 5
        JB := (o i.tag).getLsbD 4
        MB := (o i.tag).getLsbD 6
        MD := (o i.tag).getLsbD 4
        MW := (o i.tag).getLsbD 5 && !(o i.tag).getLsbD 6
        RW := !(o i.tag).getLsbD 5
        BC := (o i.tag).getLsbD 0 } := by
  rw [beforeWriteBack_controlSignals, signals_recordWith, fields_opcode]

/-- A register-writing instruction. -/
theorem run_register (p : Params) {o : Tag → BitVec 7} (ho : OpcAdmissible o) {i : Instr} {d : Nat} (hi : writtenRegister i = some d)
    (v : Word xlen) (s : State xlen) :
    runInstruction (i.recordWith o) v s p =
      if d < Config.nreg then
        .next (((beforeWriteBack (i.recordWith o) v s).setReg d
          (if i.tag = .load then s.memRead v else v)).pcStep (i.recordWith o) p)
      else .refused .illFormedRecord := by
  obtain ⟨h5, h4⟩ := admissible_register ho hi
  have hdest : (i.recordWith o).dest = some d := by
    cases i <;> simp [writtenRegister] at hi <;> simp [Instr.fields, hi]
  have hRW : (beforeWriteBack (i.recordWith o) v s).controlSignals.RW = true := by
    simp only [beforeWriteBack_signals, h5, Bool.not_false]
  have hMW : (beforeWriteBack (i.recordWith o) v s).controlSignals.MW = false := by
    simp only [beforeWriteBack_signals, h5, Bool.false_and]
  have hMD : (beforeWriteBack (i.recordWith o) v s).controlSignals.MD = decide (i.tag = .load) := by
    simp only [beforeWriteBack_signals, h4]
  rw [runInstruction_eq]
  split
  · rw [writeBack_register hRW hMW hdest ‹_›]
    simp only [State.writeData, hMD, decide_eq_true_eq, beforeWriteBack_aluResult, memRead_beforeWriteBack]
  · exact writeBack_register_refused hRW hMW hdest ‹_›

/-- STORE. -/
theorem run_store (p : Params) {o : Tag → BitVec 7} (ho : OpcAdmissible o) (a b : Nat) (v : Word xlen) (s : State xlen) :
    runInstruction ((Instr.store a b).recordWith o) v s p =
      .next (((beforeWriteBack ((Instr.store a b).recordWith o) v s).memWrite v (s.rd (some b))).pcStep
        ((Instr.store a b).recordWith o) p) := by
  obtain ⟨-, -, -, -, h5, -⟩ := ho
  have hMW : (beforeWriteBack ((Instr.store a b).recordWith o) v s).controlSignals.MW = true := by
    simp only [beforeWriteBack_signals, Instr.tag, h5, Bool.not_false, Bool.and_true]
  have hRW : (beforeWriteBack ((Instr.store a b).recordWith o) v s).controlSignals.RW = false := by
    simp only [beforeWriteBack_signals, Instr.tag, h5, Bool.not_true]
  rw [runInstruction_eq, writeBack_store hMW hRW, rd_beforeWriteBack]
  rfl

/-- BRZ, JMP, NOP and unrecognised mnemonics: only `pc`, the stage and the working registers change. -/
theorem run_pc (p : Params) {o : Tag → BitVec 7} (ho : OpcAdmissible o) {i : Instr} (hi : writtenRegister i = none)
    (hs : ∀ a b, i ≠ .store a b) (v : Word xlen) (s : State xlen) :
    runInstruction (i.recordWith o) v s p =
      .next ((beforeWriteBack (i.recordWith o) v s).pcStep (i.recordWith o) p) := by
  obtain ⟨hMW, hRW⟩ := admissible_no_store ho hi hs
  rw [runInstruction_eq]
  exact writeBack_pc (by rw [beforeWriteBack_signals]; exact hMW) (by rw [beforeWriteBack_signals]; exact hRW)

/-- The PC mux of an instruction: from a state in its WRITE_BACK, the next `pc` (44_control_transfer.md R164). -/
def muxPc (i : Instr) (s : State xlen) : Int :=
  match i with
  | .brz _ k => if s.aluResult = 0 then s.pc + k else s.pc + 1
  | .jmp a => (s.rd (some a)).toNat
  | _ => s.pc + 1

theorem muxPc_of_not_transfer {i : Instr} (h : isTransfer i = false) (s : State xlen) : muxPc i s = s.pc + 1 := by
  cases i <;> first | rfl | cases h

/-- The next `pc` of a state in WRITE_BACK of instruction `i`, whatever steps 1 and 2 did to the registers. -/
theorem nextPc_of {o : Tag → BitVec 7} (ho : OpcAdmissible o) (i : Instr) {s : State xlen}
    (hc : s.controlSignals = signals (i.recordWith o).binary) : s.nextPc (i.recordWith o) = muxPc i s := by
  rw [signals_recordWith, fields_opcode] at hc
  by_cases ht : isTransfer i = false
  · rw [muxPc_of_not_transfer ht]
    exact nextPc_sequential (by rw [hc]; exact admissible_sequential ho ht)
  · obtain ⟨-, -, -, -, -, ⟨b1, b2, b3⟩, ⟨j1, j2, j3⟩, -⟩ := ho
    cases i with
    | brz a k =>
      rw [nextPc_branch (by simp only [hc, Instr.tag, b1, b2, Bool.and_self]) (by simp only [hc, Instr.tag, b3])]
      rfl
    | jmp a =>
      rw [nextPc_jump (by simp only [hc, Instr.tag, j1, j2, Bool.and_self]) (by simp only [hc, Instr.tag, j3])]
      rfl
    | _ => exact absurd rfl ht

/-! ### The same for the machine's own table -/

theorem exec_register {i : Instr} {d : Nat} (hi : writtenRegister i = some d) (s : State) :
    exec i s =
      if d < Config.nreg then
        .next (((beforeWriteBack i.record (aluOf i.record s) s).setReg d
          (if i.tag = .load then s.memRead (aluOf i.record s) else aluOf i.record s)).pcStep i.record)
      else .refused .illFormedRecord := by
  rw [exec_eq_run]
  exact run_register defaultParams opc_admissible hi _ s

theorem exec_store (a b : Nat) (s : State) :
    exec (.store a b) s =
      .next (((beforeWriteBack (Instr.store a b).record (s.rd (some a)) s).memWrite (s.rd (some a))
        (s.rd (some b))).pcStep (Instr.store a b).record) :=
  run_store defaultParams opc_admissible a b _ s

theorem exec_pc {i : Instr} (hi : writtenRegister i = none) (hs : ∀ a b, i ≠ .store a b) (s : State) :
    exec i s = .next ((beforeWriteBack i.record (aluOf i.record s) s).pcStep i.record) := by
  rw [exec_eq_run]
  exact run_pc defaultParams opc_admissible hi hs _ s

/-- The next `pc` of the machine's own table (44_control_transfer.md R164). -/
theorem nextPc_record (i : Instr) {s : State xlen} (hc : s.controlSignals = signals i.record.binary) :
    s.nextPc i.record = muxPc i s :=
  nextPc_of opc_admissible i hc

/-- Everything `exec` can do when it answers a next state: a register write, a store, or neither. -/
theorem exec_next {i : Instr} {s t : State} (h : exec i s = .next t) :
    (∃ d, writtenRegister i = some d ∧ d < Config.nreg ∧
      t = ((beforeWriteBack i.record (aluOf i.record s) s).setReg d
        (if i.tag = .load then s.memRead (aluOf i.record s) else aluOf i.record s)).pcStep i.record) ∨
    (∃ a b, i = .store a b ∧
      t = ((beforeWriteBack i.record (s.rd (some a)) s).memWrite (s.rd (some a)) (s.rd (some b))).pcStep i.record) ∨
    (writtenRegister i = none ∧ (∀ a b, i ≠ .store a b) ∧
      t = (beforeWriteBack i.record (aluOf i.record s) s).pcStep i.record) := by
  cases hw : writtenRegister i with
  | some d =>
    rw [exec_register hw] at h
    split at h
    · cases h; exact .inl ⟨d, rfl, ‹_›, rfl⟩
    · cases h
  | none =>
    by_cases hs : ∃ a b, i = .store a b
    · obtain ⟨a, b, rfl⟩ := hs
      rw [exec_store] at h
      cases h
      exact .inr (.inl ⟨a, b, rfl, rfl⟩)
    · have hs' : ∀ a b, i ≠ .store a b := fun a b e => hs ⟨a, b, e⟩
      rw [exec_pc hw hs'] at h
      cases h
      exact .inr (.inr ⟨rfl, hs', rfl⟩)

end Sys2Proof.Machine
end

