-- ==== Sys2Proof/Laws/Stages.lean ====
section
/-! SUPPORT. The laws of the four-stage machine and of the step over one instruction (spec/40_stage_machine.md). -/

namespace Sys2Proof.Machine

variable {xlen : Nat}

/-! ### The instruction memory -/

theorem recordAt_of_neg (im : List Record) {k : Int} (h : k < 0) : recordAt im k = none := by
  simp [recordAt, show ¬ 0 ≤ k by omega]

theorem recordAt_eq_none_iff (im : List Record) (k : Int) : recordAt im k = none ↔ k < 0 ∨ (im.length : Int) ≤ k := by
  unfold recordAt
  split
  · rw [List.getElem?_eq_none_iff]; omega
  · simp; omega

theorem recordAt_isSome {im : List Record} {k : Int} (h0 : 0 ≤ k) (h1 : k < im.length) :
    ∃ r, recordAt im k = some r := by
  cases h : recordAt im k with
  | some r => exact ⟨r, rfl⟩
  | none => rw [recordAt_eq_none_iff] at h; omega

theorem recordAt_mem {im : List Record} {k : Int} {r : Record} (h : recordAt im k = some r) : r ∈ im := by
  unfold recordAt at h
  split at h
  · exact List.mem_of_getElem? h
  · cases h

theorem recordAt_bounds {im : List Record} {k : Int} {r : Record} (h : recordAt im k = some r) :
    0 ≤ k ∧ k < im.length := by
  by_contra hc
  have : recordAt im k = none := by rw [recordAt_eq_none_iff]; omega
  rw [this] at h
  cases h

theorem getElem?_placeAt (im : List Record) (n : Nat) (r : Record) : (placeAt im n r)[n]? = some r := by
  induction n generalizing im with
  | zero => cases im <;> rfl
  | succ n ih => cases im <;> simp [placeAt, ih]

/-! ### One stage step, by stage -/

theorem stageStep_fetch {s : State xlen} {p : Params} (h : s.currentStage = .fetch) : stageStep s p = s.fetchStep := by
  simp [stageStep, h]

theorem fetchStep_inside {s : State xlen} (h0 : 0 ≤ s.pc) (h1 : s.pc < s.instructionMemory.length) :
    s.fetchStep = .next s.fetched := by
  simp [State.fetchStep, show ¬ s.pc < 0 by omega, h1]

theorem fetchStep_halted {s : State xlen} (h : (s.instructionMemory.length : Int) ≤ s.pc) : s.fetchStep = .next s := by
  simp [State.fetchStep, show ¬ s.pc < 0 by omega, show ¬ s.pc < s.instructionMemory.length by omega]

theorem fetchStep_neg {s : State xlen} (h : s.pc < 0) : s.fetchStep = .fault .negativePc := by
  simp [State.fetchStep, h]

theorem onActive_ok {o : Tag → BitVec 7} {s : State xlen} {r : Record} (ha : s.activeRecord = some r) (hw : r.wellFormed o = true)
    (act : Record → Result xlen) : s.onActive act o = act r := by
  simp [State.onActive, ha, hw]

theorem onActive_ill {o : Tag → BitVec 7} {s : State xlen} {r : Record} (ha : s.activeRecord = some r) (hw : r.wellFormed o = false)
    (act : Record → Result xlen) : s.onActive act o = .refused .illFormedRecord := by
  simp [State.onActive, ha, hw]

/-- The stage step past FETCH, for a well-formed active record. -/
theorem stageStep_decode {s : State xlen} {r : Record} (p : Params) (hs : s.currentStage = .decode)
    (ha : s.activeRecord = some r) (hw : r.wellFormed p.opc = true) : stageStep s p = .next (s.decoded r) := by
  simp only [stageStep, hs]
  exact onActive_ok ha hw _

theorem stageStep_execute {s : State xlen} {r : Record} (p : Params) (hs : s.currentStage = .execute)
    (ha : s.activeRecord = some r) (hw : r.wellFormed p.opc = true) :
    stageStep s p = .next (s.executed (aluOf r s p.aluOrMode)) := by
  simp only [stageStep, hs]
  exact onActive_ok ha hw _

theorem stageStep_writeBack {s : State xlen} {r : Record} (p : Params) (hs : s.currentStage = .writeBack)
    (ha : s.activeRecord = some r) (hw : r.wellFormed p.opc = true) : stageStep s p = s.writeBack r p := by
  simp only [stageStep, hs]
  exact onActive_ok ha hw _

/-- An action on the active record that answers a next state acted on a well-formed record. -/
theorem onActive_next {o : Tag → BitVec 7} {s t : State xlen} {act : Record → Result xlen} (h : s.onActive act o = .next t) :
    ∃ r, s.activeRecord = some r ∧ r.wellFormed o = true ∧ act r = .next t := by
  simp only [State.onActive] at h
  split at h
  · cases h
  · rename_i r ha
    split at h
    · exact ⟨r, ha, ‹_›, h⟩
    · cases h

/-- Everything WRITE_BACK can do when it answers a next state. -/
theorem writeBack_next {s t : State xlen} {r : Record} {p : Params} (h : s.writeBack r p = .next t) :
    ∃ s₁ s₂ : State xlen, s₁ = s.storeStep r ∧ s₁.registerStep r = .next s₂ ∧ t = s₂.pcStep r p := by
  simp only [State.writeBack] at h
  split at h
  · rename_i s₂ h₂; cases h; exact ⟨_, s₂, rfl, h₂, rfl⟩
  · cases h
  · cases h

/-- Everything the register step can do when it answers a next state. -/
theorem registerStep_next {s t : State xlen} {r : Record} (h : s.registerStep r = .next t) :
    (s.controlSignals.RW = true ∧ ∃ d, r.dest = some d ∧ d < Config.nreg ∧ t = s.setReg d s.writeData) ∨
    ((s.controlSignals.RW = false ∨ r.dest = none) ∧ t = s) := by
  simp only [State.registerStep, State.writeDest] at h
  split at h
  · rename_i hRW
    split at h
    · cases h; exact .inr ⟨.inr ‹_›, rfl⟩
    · rename_i d hd
      split at h
      · cases h; exact .inl ⟨hRW, d, hd, ‹_›, rfl⟩
      · cases h
  · rename_i hRW; cases h; exact .inr ⟨.inl (by simpa using hRW), rfl⟩

/-- Everything one stage step can do when it answers a next state. -/
theorem stageStep_next {s t : State xlen} {p : Params} (h : stageStep s p = .next t) :
    (s.currentStage = .fetch ∧ 0 ≤ s.pc ∧ s.pc < s.instructionMemory.length ∧ t = s.fetched) ∨
    (s.currentStage = .fetch ∧ (s.instructionMemory.length : Int) ≤ s.pc ∧ t = s) ∨
    (∃ r, s.activeRecord = some r ∧ r.wellFormed p.opc = true ∧
      ((s.currentStage = .decode ∧ t = s.decoded r) ∨
       (s.currentStage = .execute ∧ t = s.executed (aluOf r s p.aluOrMode)) ∨
       (s.currentStage = .writeBack ∧ s.writeBack r p = .next t))) := by
  simp only [stageStep] at h
  split at h
  · rename_i hs
    simp only [State.fetchStep] at h
    split at h
    · cases h
    · split at h
      · cases h; exact .inl ⟨hs, by omega, ‹_›, rfl⟩
      · cases h; exact .inr (.inl ⟨hs, by omega, rfl⟩)
  · rename_i hs
    obtain ⟨r, ha, hw, hr⟩ := onActive_next h
    cases hr
    exact .inr (.inr ⟨r, ha, hw, .inl ⟨hs, rfl⟩⟩)
  · rename_i hs
    obtain ⟨r, ha, hw, hr⟩ := onActive_next h
    cases hr
    exact .inr (.inr ⟨r, ha, hw, .inr (.inl ⟨hs, rfl⟩)⟩)
  · rename_i hs
    obtain ⟨r, ha, hw, hr⟩ := onActive_next h
    exact .inr (.inr ⟨r, ha, hw, .inr (.inr ⟨hs, hr⟩)⟩)

/-! ### What WRITE_BACK leaves alone -/

/-- The memory write of WRITE_BACK changes the data memory alone. -/
theorem storeStep_kept (s : State xlen) (r : Record) :
    (s.storeStep r).registers = s.registers ∧ (s.storeStep r).instructionMemory = s.instructionMemory ∧
      (s.storeStep r).controlSignals = s.controlSignals ∧ (s.storeStep r).aluResult = s.aluResult ∧
      (s.storeStep r).currentInstructionIndex = s.currentInstructionIndex := by
  unfold State.storeStep
  split <;> exact ⟨rfl, rfl, rfl, rfl, rfl⟩

/-- WRITE_BACK ends in FETCH and keeps the program and the working registers. -/
theorem writeBack_kept {s t : State xlen} {r : Record} {p : Params} (h : s.writeBack r p = .next t) :
    t.currentStage = .fetch ∧ t.instructionMemory = s.instructionMemory ∧ t.controlSignals = s.controlSignals ∧
      t.aluResult = s.aluResult ∧ t.currentInstructionIndex = s.currentInstructionIndex := by
  obtain ⟨s₁, s₂, rfl, h₂, rfl⟩ := writeBack_next h
  obtain ⟨-, hi, hc, ha, hx⟩ := storeStep_kept s r
  rcases registerStep_next h₂ with ⟨-, d, -, -, rfl⟩ | ⟨-, rfl⟩ <;> exact ⟨rfl, hi, hc, ha, hx⟩

/-- No stage step changes the program (20_memory.md R41). -/
theorem stageStep_instructionMemory {s t : State xlen} {p : Params} (h : stageStep s p = .next t) :
    t.instructionMemory = s.instructionMemory := by
  rcases stageStep_next h with ⟨-, -, -, rfl⟩ | ⟨-, -, rfl⟩ | ⟨r, -, -, ⟨-, rfl⟩ | ⟨-, rfl⟩ | ⟨-, hwb⟩⟩
  · rfl
  · rfl
  · rfl
  · rfl
  · exact (writeBack_kept hwb).2.1

/-! ### Runs of stage steps -/

theorem stageSteps_succ_next {s t : State xlen} {p : Params} (n : Nat) (h : stageStep s p = .next t) :
    stageSteps (n + 1) s p = stageSteps n t p := by
  simp [stageSteps, h]

theorem stageSteps_zero (s : State xlen) (p : Params) : stageSteps 0 s p = .next s := rfl

/-- `m + n` stage steps are `m` stage steps and then `n`. -/
theorem stageSteps_add_next {m : Nat} {s t : State xlen} {p : Params} (n : Nat) (h : stageSteps m s p = .next t) :
    stageSteps (m + n) s p = stageSteps n t p := by
  induction m generalizing s with
  | zero => simp [stageSteps] at h; subst h; simp
  | succ m ih =>
    cases hs : stageStep s p with
    | next u =>
      rw [stageSteps_succ_next m hs] at h
      rw [show m + 1 + n = m + n + 1 by omega, stageSteps_succ_next _ hs]
      exact ih h
    | fault f => simp [stageSteps, hs] at h
    | refused q => simp [stageSteps, hs] at h

/-! ### The step over one instruction -/

/-- The step at the defaults is the step at any parameters taken at the defaults. -/
theorem step_eq_stepWith (s : State) : step s = stepWith defaultParams s := by
  have : (exec : Instr → State → Result) = execWith defaultParams := funext fun i => funext fun s => exec_eq_execWith i s
  simp only [step, stepWith, this]

theorem instructionStep_fetch {p : Params} (run : Instr → State xlen → Result xlen) {s : State xlen}
    (h : s.currentStage = .fetch) : instructionStep run s p = fetchAndExec run s p.opc := by
  simp [instructionStep, h]

theorem step_fetch {s : State} (h : s.currentStage = .fetch) : step s = fetchAndExec exec s :=
  instructionStep_fetch exec h

/-- From FETCH, the step runs the record at `pc`. -/
theorem fetchAndExec_recordWith {o : Tag → BitVec 7} (run : Instr → State xlen → Result xlen) {s : State xlen} {i : Instr}
    (hi : i.wellFormed = true) (hr : recordAt s.instructionMemory s.pc = some (i.recordWith o)) :
    fetchAndExec run s o = run i s := by
  have := (recordAt_bounds hr).1
  simp [fetchAndExec, show ¬ s.pc < 0 by omega, hr, instr?_recordWith o hi]

/-- Everything the step from FETCH can do when it answers a next state. -/
theorem fetchAndExec_next {o : Tag → BitVec 7} {run : Instr → State xlen → Result xlen} {s t : State xlen}
    (h : fetchAndExec run s o = .next t) :
    ((s.instructionMemory.length : Int) ≤ s.pc ∧ t = s) ∨
    (∃ i, i.wellFormed = true ∧ recordAt s.instructionMemory s.pc = some (i.recordWith o) ∧ run i s = .next t) := by
  simp only [fetchAndExec] at h
  split at h
  · cases h
  · split at h
    · rename_i hr
      rw [recordAt_eq_none_iff] at hr
      cases h
      exact .inl ⟨by omega, rfl⟩
    · rename_i r hr
      split at h
      · rename_i i hi
        obtain ⟨rfl, hw⟩ := instr?_eq_some_with hi
        exact .inr ⟨i, hw, hr, h⟩
      · cases h

/-- A whole instruction as four stage steps: the first three lead to WRITE_BACK of the record at `pc` (R120). -/
theorem stageSteps_three {s : State xlen} {r : Record} {p : Params} (hs : s.currentStage = .fetch)
    (hw : r.wellFormed p.opc = true) (hr : recordAt s.instructionMemory s.pc = some r) :
    stageSteps 3 s p = .next (beforeWriteBack r (aluOf r s p.aluOrMode) s) := by
  obtain ⟨h0, h1⟩ := recordAt_bounds hr
  have e1 : stageStep s p = .next s.fetched := by rw [stageStep_fetch hs, fetchStep_inside h0 h1]
  have e2 : stageStep s.fetched p = .next (s.fetched.decoded r) :=
    stageStep_decode p rfl (show s.fetched.activeRecord = some r from hr) hw
  have e3 : stageStep (s.fetched.decoded r) p = .next (beforeWriteBack r (aluOf r s p.aluOrMode) s) :=
    stageStep_execute p rfl (show (s.fetched.decoded r).activeRecord = some r from hr) hw
  rw [stageSteps_succ_next 2 e1, stageSteps_succ_next 1 e2, stageSteps_succ_next 0 e3, stageSteps_zero]

/-- Four stage steps from FETCH are the meaning of the instruction at `pc` (R120). -/
theorem stageSteps_four {s : State xlen} {i : Instr} {p : Params} (hs : s.currentStage = .fetch)
    (hi : i.wellFormed = true) (hr : recordAt s.instructionMemory s.pc = some (i.recordWith p.opc)) :
    stageSteps 4 s p = execWith p i s := by
  have hw : (i.recordWith p.opc).wellFormed p.opc = true := by rw [recordWith_wellFormed, hi]
  have h4 := stageStep_writeBack (s := beforeWriteBack (i.recordWith p.opc) (aluOf (i.recordWith p.opc) s p.aluOrMode) s)
    p rfl hr hw
  rw [show 4 = 3 + 1 from rfl, stageSteps_add_next 1 (stageSteps_three hs hw hr), execWith_eq_run, runInstruction_eq,
    ← h4]
  simp only [stageSteps]
  split <;> simp_all

/-- A word that no instruction stands for is placed as a record that the next step refuses (30_encoding.md R62, R76). -/
theorem step_withFetchWord_none {s : State} {nbits w : Nat} (h : decodeTableWord nbits w = none) :
    step (s.withFetchWord nbits w) = .refused .illFormedRecord := by
  have hp : (max s.pc 0).toNat = s.pc.toNat := by omega
  have hr : recordAt (s.withFetchWord nbits w).instructionMemory (s.withFetchWord nbits w).pc =
      some ⟨.nop, some Config.nreg, none, none, none, none, BitVec.ofNat 16 w⟩ := by
    simp only [State.withFetchWord, placeFetchWord, recordOfWord, h, recordAt, hp, getElem?_placeAt]
    rw [if_pos (by omega)]
  have h0 := (recordAt_bounds hr).1
  show fetchAndExec exec _ opc = _
  simp only [fetchAndExec, if_neg (show ¬ (s.withFetchWord nbits w).pc < 0 by omega), hr]
  rfl

end Sys2Proof.Machine
end

