-- ==== Sys2Proof/Laws/Driver.lean ====
section
/-! SUPPORT. The laws of the driver operations (spec/46_driver_interface.md). -/

namespace Sys2Proof.Machine

variable {xlen : Nat}

@[simp] theorem lengthOk_none (program : List Record) : lengthOk none program = true := rfl

/-- Everything `load` can do: refuse a program that is not accepted or too long, or replace the program and reset. -/
theorem load_eq (s : State xlen) (text : List Char) (p : Params) :
    s.load text p =
      if programOk (assemble text p) p.opc = true then
        if lengthOk p.progMaxLen (assemble text p) = true then
          .next { s with instructionMemory := assemble text p }.resetCpu
        else .refused .programTooLong
      else .refused .illFormedRecord := by
  simp only [State.load, State.loadRecords]
  cases programOk (assemble text p) p.opc <;> cases lengthOk p.progMaxLen (assemble text p) <;> rfl

/-- `load` at the defaults, where programs have no bound. -/
theorem load_default (s : State) (text : List Char) :
    s.load text =
      if programOk (assemble text) = true then .next { s with instructionMemory := assemble text }.resetCpu
      else .refused .illFormedRecord := by
  rw [load_eq]
  simp

/-- An accepted program meets the invariant's clause about the program. -/
theorem accepted_of_programOk {o : Tag → BitVec 7} {s : State xlen} (h : programOk s.instructionMemory o = true) :
    s.Accepted o := by
  simpa [State.Accepted, programOk] using h

end Sys2Proof.Machine
end

