-- ==== Sys2Proof/Laws/PerInstr.lean ====
section
/-! SUPPORT. Families stated per instruction (LAWS.json). -/

namespace Sys2Proof.Laws.RecordRoundTrip

/-- The record of a well-formed instruction is accepted and gives the instruction back, every operand at its full typed
value (spec/10_state.md R27, spec/30_encoding.md R80). -/
def Statement (i : Instr) : Prop := i.wellFormed = true → i.record.instr? = some i

theorem add (dest src1 src2 : Nat) : Statement (.add dest src1 src2) := instr?_record
theorem sub (dest src1 src2 : Nat) : Statement (.sub dest src1 src2) := instr?_record
theorem and (dest src1 src2 : Nat) : Statement (.and dest src1 src2) := instr?_record
theorem or (dest src1 src2 : Nat) : Statement (.or dest src1 src2) := instr?_record
theorem addi (dest src1 : Nat) (immediate : Int) : Statement (.addi dest src1 immediate) := instr?_record
theorem ldi (dest : Nat) (immediate : Int) : Statement (.ldi dest immediate) := instr?_record
theorem mov (dest : Nat) (immediate : Int) : Statement (.mov dest immediate) := instr?_record
theorem load (dest src1 : Nat) : Statement (.load dest src1) := instr?_record
theorem store (src1 src2 : Nat) : Statement (.store src1 src2) := instr?_record
theorem brz (src1 : Nat) (address : Int) : Statement (.brz src1 address) := instr?_record
theorem jmp (src1 : Nat) : Statement (.jmp src1) := instr?_record
theorem nop : Statement .nop := instr?_record
theorem unknown (text : List Char) : Statement (.unknown text) := instr?_record

end Sys2Proof.Laws.RecordRoundTrip
end

