-- ==== Sys2Proof/Tests/Slice0.lean ====
section
/-! SUPPORT. The model's own tests: the WellFormed smoke, decoding, one step per instruction, and the witnesses of the
obligations' hypotheses. Expected values are those of spec/95_test_vectors.md and spec/30_encoding.md R91, or worked out
by hand from the rule a comment names. -/

namespace Sys2Proof.Tests
open Sys2Proof.Machine

/-! ### Helpers -/

/-- A small state in FETCH, for a width and an opcode table: registers, `pc`, data memory and program. -/
def cpuWith (xlen : Nat) (o : Tag → BitVec 7) (x : List Nat) (pc : Int) (dm : Memory xlen) (im : List Instr) :
    State xlen where
  registers := Vector.ofFn fun k : Fin 8 => BitVec.ofNat xlen (x.getD k.val 0)
  pc := pc
  dataMemory := dm
  instructionMemory := im.map fun i => i.recordWith o
  currentStage := .fetch
  controlSignals := ⟨false, false, false, false, false, false, false⟩
  aluResult := 0
  currentInstructionIndex := 0

/-- A small state at the default width and opcode table. -/
def cpu (x : List Nat) (pc : Int) (dm : Memory) (im : List Instr) : State := cpuWith Config.xlen opc x pc dm im

/-- The default opcode table but for AND's two lowest bits, which R74 leaves free. -/
def otherTable : Tag → BitVec 7
  | .and => 0b0001011#7
  | t => opc t

/-- The registers, `pc` and data memory of a next state; none for a fault or a refusal. -/
def view {xlen : Nat} : Result xlen → Option (List Nat × Int × Memory xlen)
  | .next t => some (t.registers.toList.map BitVec.toNat, t.pc, t.dataMemory)
  | .fault _ => none
  | .refused _ => none

/-- The working registers and the stage of a next state. -/
def working : Result → Option (Stage × Int × ControlSignals × Word)
  | .next t => some (t.currentStage, t.currentInstructionIndex, t.controlSignals, t.aluResult)
  | .fault _ => none
  | .refused _ => none

/-- The fault an outcome is. -/
def faultOf {xlen : Nat} : Result xlen → Option Fault
  | .fault f => some f
  | .next _ => none
  | .refused _ => none

/-- The refusal an outcome is. -/
def refusalOf {xlen : Nat} : Result xlen → Option Refusal
  | .refused q => some q
  | .next _ => none
  | .fault _ => none

/-- The outcome is a next state. -/
def isNext {xlen : Nat} : Result xlen → Bool
  | .next _ => true
  | .fault _ => false
  | .refused _ => false

/-- One instruction stepped at index 0 with registers `x` and data memory `dm`. -/
def one (i : Instr) (x : List Nat) (dm : Memory) : Option (List Nat × Int × Memory) := view (step (cpu x 0 dm [i]))

/-! ### WellFormed smoke: an ill-formed term for each check -/

theorem test_smoke_regIndexOk : regIndexOk 7 = true ∧ regIndexOk 8 = false := by decide

theorem test_smoke_regFieldOk : regFieldOk none = true ∧ regFieldOk (some 7) = true ∧ regFieldOk (some 8) = false := by
  decide

/-- R27 (i): a NOP with a `dest`, an LDI without its immediate, a BRZ whose offset stands in the immediate. -/
theorem test_smoke_layoutOk :
    (Record.layoutOk ⟨.nop, some 0, none, none, none, none, 0#16⟩) = false ∧
    (Record.layoutOk ⟨.ldi, some 1, none, none, none, none, 0#16⟩) = false ∧
    (Record.layoutOk ⟨.brz, none, some 1, none, some 4, none, 0#16⟩) = false ∧
    (Record.layoutOk ⟨.brz, none, some 1, none, none, some 4, 0#16⟩) = true := by decide

/-- R27 (ii): the word of `LDI R1,5` (0x9845) beside a record for `LDI R1,6`. -/
theorem test_smoke_binaryOk :
    (Record.binaryOk ⟨.ldi, some 1, none, none, some 5, none, 0x9845#16⟩) = true ∧
    (Record.binaryOk ⟨.ldi, some 1, none, none, some 6, none, 0x9845#16⟩) = false := by decide

/-- R27 (iii): an index 8 in each of the three register fields. -/
theorem test_smoke_indicesOk :
    (Record.indicesOk ⟨.add, some 8, some 0, some 0, none, none, 0#16⟩) = false ∧
    (Record.indicesOk ⟨.add, some 0, some 8, some 0, none, none, 0#16⟩) = false ∧
    (Record.indicesOk ⟨.add, some 0, some 0, some 8, none, none, 0#16⟩) = false := by decide

/-- Each of the three parts of R27 alone makes a record ill-formed, and an ill-formed record has no instruction. -/
theorem test_smoke_record_wellFormed :
    (Record.wellFormed ⟨.nop, some 0, none, none, none, none, 0#16⟩) = false ∧
    (Record.wellFormed ⟨.nop, none, none, none, none, none, 1#16⟩) = false ∧
    (Instr.ldi 9 5).record.wellFormed = false ∧ (Instr.ldi 9 5).record.instr? = none ∧
    (Instr.ldi 1 5).record.wellFormed = true := by decide

/-- Every register operand of every constructor is checked. -/
theorem test_smoke_instr_wellFormed :
    [Instr.add 8 0 0, .add 0 8 0, .add 0 0 8, .sub 8 0 0, .sub 0 8 0, .sub 0 0 8, .and 8 0 0, .and 0 8 0, .and 0 0 8,
      .or 8 0 0, .or 0 8 0, .or 0 0 8, .addi 8 0 0, .addi 0 8 0, .ldi 8 0, .mov 8 0, .load 8 0, .load 0 8, .store 8 0,
      .store 0 8, .brz 8 0, .jmp 8].all (fun i => !i.wellFormed) = true := by decide

/-- A word cannot carry an immediate or offset outside `[0, 7]`, MOV, or an unrecognised mnemonic (R66). -/
theorem test_smoke_fitsWord :
    [Instr.addi 0 0 8, .addi 0 0 (-1), .ldi 0 8, .ldi 8 0, .mov 0 0, .brz 0 (-1), .brz 0 8, .unknown [],
      .add 8 0 0].all (fun i => !i.fitsWord) = true := by decide

/-- The canonical form of a data memory: not falling, not repeating, no key 2^16. -/
theorem test_smoke_memory_wf :
    let wf : Memory → Bool := Memory.wf
    wf [(3, 7), (65535, 0)] = true ∧ wf [(4, 1), (3, 1)] = false ∧ wf [(3, 1), (3, 2)] = false ∧
    wf [(65536, 1)] = false ∧ wf [(0, 1), (65536, 1)] = false := by decide

/-! ### Decoding: every constructor's word, written out from the spec's encoding (R91, 95_test_vectors.md 2.1) -/

theorem test_decode_add : decode 0b0000010_001_010_011#16 = .instr (.add 1 2 3) := by decide
theorem test_decode_sub : decode 0b0000101_011_001_010#16 = .instr (.sub 3 1 2) := by decide
theorem test_decode_and : decode 0b0001000_011_010_001#16 = .instr (.and 3 2 1) := by decide
theorem test_decode_or : decode 0b0001001_100_101_110#16 = .instr (.or 4 5 6) := by decide
theorem test_decode_addi : decode 0b1000010_010_001_111#16 = .instr (.addi 2 1 7) := by decide
theorem test_decode_ldi : decode 0b1001100_001_000_101#16 = .instr (.ldi 1 5) := by decide
theorem test_decode_load : decode 0b0010000_110_001_000#16 = .instr (.load 6 1) := by decide
theorem test_decode_store : decode 0b0100000_000_001_101#16 = .instr (.store 1 5) := by decide
theorem test_decode_brz : decode 0b1100000_000_010_110#16 = .instr (.brz 2 6) := by decide
theorem test_decode_jmp : decode 0b1110000_000_111_000#16 = .instr (.jmp 7) := by decide
theorem test_decode_nop : decode 0b0000000_000_000_000#16 = .instr .nop := by decide

/-- MOV's word is LDI's and an unrecognised mnemonic's is NOP's (R67, R71, R72). -/
theorem test_decode_mov_unknown :
    encode (.mov 2 (-3)) = 0b1001100_010_000_101#16 ∧ decode 0b1001100_010_000_101#16 = .instr (.ldi 2 5) ∧
    encode (.unknown ['F', 'O', 'O']) = 0x0000#16 := by decide

/-- An opcode field of no tag is rejected by name (R76); a table word wider than one word is no instruction. -/
theorem test_decode_rejects :
    decode 0b1111111_000_000_000#16 = .rejected (.unassignedOpcode 0b1111111#7) ∧
    decodeTableWord 16 0xFE00 = none ∧ decodeTableWord 32 0 = none ∧ decodeTableWord 8 0 = none ∧
    decodeTableWord 16 0x10000 = none ∧ decodeTableWord 16 0x0453 = some (.add 1 2 3) := by
  decide

/-- Words of R91 and of 95_test_vectors.md 2.1, negative and large operands among them. -/
theorem test_encode_words :
    [encode (.add 1 2 3), encode (.sub 2 0 1), encode (.and 7 7 7), encode (.or 4 2 1), encode (.addi 1 1 (-1)),
      encode (.addi 1 2 8), encode (.ldi 2 10), encode (.ldi 3 70000), encode (.mov 2 (-3)), encode (.load 0 7),
      encode (.store 7 0), encode (.brz 2 (-2)), encode (.jmp 7), encode .nop, encode (.ldi 9 5)] =
    [0x0453#16, 0x0A81#16, 0x11FF#16, 0x1311#16, 0x844F#16, 0x8450#16, 0x9882#16, 0x98C0#16, 0x9885#16, 0x2038#16,
      0x4038#16, 0xC016#16, 0xE038#16, 0x0000#16, 0x9845#16] := by decide

/-! ### One step per instruction (95_test_vectors.md 2.3 to 2.7) -/

theorem test_add_wraps : one (.add 3 1 2) [0, 40000, 30000] [] = some ([0, 40000, 30000, 4464, 0, 0, 0, 0], 1, []) := by
  decide
theorem test_add_into_its_source : one (.add 1 1 1) [0, 7] [] = some ([0, 14, 0, 0, 0, 0, 0, 0], 1, []) := by decide
theorem test_sub_negative_as_unsigned : one (.sub 3 1 2) [0, 3, 5] [] = some ([0, 3, 5, 65534, 0, 0, 0, 0], 1, []) := by
  decide
theorem test_and : one (.and 3 1 2) [0, 0xF0F0, 0x0FF0] [] = some ([0, 0xF0F0, 0x0FF0, 240, 0, 0, 0, 0], 1, []) := by
  decide
theorem test_or_writes_zero_in_table_literal_mode :
    one (.or 4 2 1) [0, 1, 65535, 0, 99] [] = some ([0, 1, 65535, 0, 0, 0, 0, 0], 1, []) := by decide
theorem test_or_bitwise_mode : (aluOr .bitwiseOr (0xF0F0 : Word) 0x0FF0).toNat = 65520 := by decide
theorem test_addi_full_immediate : one (.addi 1 2 8) [0, 0, 3] [] = some ([0, 11, 3, 0, 0, 0, 0, 0], 1, []) := by decide
theorem test_addi_negative : one (.addi 1 2 (-200)) [0, 0, 100] [] = some ([0, 65436, 100, 0, 0, 0, 0, 0], 1, []) := by
  decide
theorem test_ldi_above_the_field : one (.ldi 2 10) [] [] = some ([0, 0, 10, 0, 0, 0, 0, 0], 1, []) := by decide
theorem test_ldi_wraps : one (.ldi 3 70000) [] [] = some ([0, 0, 0, 4464, 0, 0, 0, 0], 1, []) := by decide
theorem test_mov_loads_its_immediate : one (.mov 2 (-3)) [] [] = some ([0, 0, 65533, 0, 0, 0, 0, 0], 1, []) := by decide
theorem test_load_absent_is_zero :
    one (.load 6 1) [0, 4, 0, 0, 0, 0, 9] [(3, 7)] = some ([0, 4, 0, 0, 0, 0, 0, 0], 1, [(3, 7)]) := by decide
theorem test_load_over_its_address : one (.load 1 1) [0, 3] [(3, 7)] = some ([0, 7, 0, 0, 0, 0, 0, 0], 1, [(3, 7)]) := by
  decide
theorem test_store_zero_creates_a_key : one (.store 1 5) [0, 3] [] = some ([0, 3, 0, 0, 0, 0, 0, 0], 1, [(3, 0)]) := by
  decide
theorem test_store_address_register_first :
    one (.store 5 1) [0, 3, 0, 0, 0, 7] [(3, 1), (9, 1)] =
      some ([0, 3, 0, 0, 0, 7, 0, 0], 1, [(3, 1), (7, 3), (9, 1)]) := by decide
theorem test_brz_backward_by_the_full_offset :
    view (step (cpu [] 3 [] [.nop, .nop, .nop, .brz 0 (-2)])) = some ([0, 0, 0, 0, 0, 0, 0, 0], 1, []) := by decide
theorem test_brz_not_taken : one (.brz 1 4) [0, 65535] [] = some ([0, 65535, 0, 0, 0, 0, 0, 0], 1, []) := by decide
theorem test_jmp_absolute : one (.jmp 7) [0, 0, 0, 0, 0, 0, 0, 65535] [] =
    some ([0, 0, 0, 0, 0, 0, 0, 65535], 65535, []) := by decide
theorem test_nop : one .nop [1, 2, 3, 4, 5, 6, 7, 8] [(3, 7)] = some ([1, 2, 3, 4, 5, 6, 7, 8], 1, [(3, 7)]) := by decide
theorem test_unknown_is_a_nop :
    one (.unknown ['H', 'A', 'L', 'T']) [1, 2, 3, 4, 5, 6, 7, 8] [(3, 7)] =
      some ([1, 2, 3, 4, 5, 6, 7, 8], 1, [(3, 7)]) := by decide

/-! ### The stage machine, stops and the driver (95_test_vectors.md 2.2, 2.8, section 3 and P7) -/

/-- The signals of words the encoder never makes, in the order MB MD RW MW PL JB BC. -/
theorem test_signals :
    signals 0xFFFF#16 = ⟨true, true, false, false, true, true, true⟩ ∧
    signals 0x6000#16 = ⟨false, true, false, true, false, true, false⟩ ∧
    signals 0xA000#16 = ⟨true, true, true, false, false, true, false⟩ ∧
    signals 0x01FF#16 = ⟨false, false, true, false, false, false, false⟩ := by decide

/-- `LDI R2, 10` at index 1 of P1, stage by stage (section 3). -/
theorem test_ldi_traced :
    let s := cpu [0, 5] 1 [] [.ldi 1 5, .ldi 2 10, .add 3 1 2]
    (working (stageSteps 1 s)).map (fun p => (p.1, p.2.1)) = some (.decode, 1) ∧
    (working (stageSteps 2 s)).map (fun p => (p.1, p.2.2.1)) =
      some (.execute, ⟨true, false, true, false, false, false, false⟩) ∧
    (working (stageSteps 3 s)).map (fun p => (p.1, p.2.2.2)) = some (.writeBack, 10) ∧
    view (stageSteps 4 s) = some ([0, 5, 10, 0, 0, 0, 0, 0], 2, []) := by decide

/-- A BRZ to index -1 is taken, and the next FETCH faults (P7). -/
theorem test_negative_pc_faults :
    one (.brz 0 (-1)) [] [] = some ([0, 0, 0, 0, 0, 0, 0, 0], -1, []) ∧
    faultOf (step (cpu [] (-1) [] [.nop])) = some .negativePc := by decide

/-- A hand-built record that is not well-formed stops the step that runs it, and DECODE; `exec` refuses a destination
above 7. -/
theorem test_ill_formed_is_refused :
    refusalOf (step (cpu [] 0 [] [.ldi 9 5])) = some .illFormedRecord ∧
    refusalOf (stageSteps 2 (cpu [] 0 [] [.ldi 9 5])) = some .illFormedRecord ∧
    refusalOf (exec (.ldi 9 5) (cpu [] 0 [] [])) = some .illFormedRecord := by decide

/-- A state of no run: DECODE with an index that names no record (log entry 5). -/
theorem test_no_active_record :
    refusalOf (stageStep { cpu [] 0 [] [] with currentStage := .decode }) = some .noActiveRecord := by decide

/-- A word placed for the next step is what that step runs, from reset. -/
theorem test_withFetchWord_from_reset :
    view (step (State.reset.withFetchWord 16 0x9845)) = some ([0, 5, 0, 0, 0, 0, 0, 0], 1, []) := by decide

/-- A word of no tag, and rows of another width than one word, are refused by the step they are placed for (R62, R76). -/
theorem test_withFetchWord_refuses :
    refusalOf (step (State.reset.withFetchWord 16 0xFE00)) = some .illFormedRecord ∧
    refusalOf (step (State.reset.withFetchWord 32 0)) = some .illFormedRecord ∧
    refusalOf (step (State.reset.withFetchWord 8 0)) = some .illFormedRecord := by decide

/-- OR in `bitwise_or` mode (95_test_vectors.md P4), and SUB 0 - 1 at a width of 32 (R8). -/
theorem test_or_mode_and_width :
    view (stepWith { defaultParams with aluOrMode := .bitwiseOr } (cpu [0, 1, 65535] 0 [] [.or 4 2 1])) =
      some ([0, 1, 65535, 0, 65535, 0, 0, 0], 1, []) ∧
    view (stepWith defaultParams (cpuWith 32 opc [0, 1] 0 [] [.sub 2 0 1])) =
      some ([0, 1, 4294967295, 0, 0, 0, 0, 0], 1, []) := by decide

/-- A program assembled with another opcode table runs under that table and is refused under the default one; a `pc`
domain of 4 values wraps. -/
theorem test_table_and_pc_domain :
    view (stepWith { defaultParams with opc := otherTable } (cpuWith 16 otherTable [0, 6, 3] 0 [] [.and 3 1 2])) =
      some ([0, 6, 3, 2, 0, 0, 0, 0], 1, []) ∧
    refusalOf (step (cpuWith 16 otherTable [0, 6, 3] 0 [] [.and 3 1 2])) = some .illFormedRecord ∧
    (view (stepWith { defaultParams with pcDomain := fun k => k % 4 } (cpu [] 3 [] [.nop, .nop, .nop, .nop]))).map
      (fun t => t.2.1) = some 0 := by decide

/-- No aliases (P2's remark), a domain of immediates, and a bound on the program's length. -/
theorem test_text_parameters :
    assemble "LD R1,R2".toList { defaultParams with aliases := [] } = [(Instr.unknown ['L', 'D']).record] ∧
    assemble "LDI R1,300".toList { defaultParams with immDomain := fun k => k % 256 } = [(Instr.ldi 1 44).record] ∧
    refusalOf ((cpu [] 0 [] []).load "NOP\nNOP".toList { defaultParams with progMaxLen := some 1 }) =
      some .programTooLong ∧
    isNext ((cpu [] 0 [] []).load "NOP".toList { defaultParams with progMaxLen := some 1 }) = true := by decide

/-- The lines of P6: a blank line and a comment take no slot; lower case and aliases (95_test_vectors.md P6). -/
theorem test_assemble_p6 :
    assemble "NOP\nFOO R1,R2\n\n; c\r\nldi r3, 9\nst r3 r3\nld r4,r3\nJMP R3".toList =
      [Instr.nop, .unknown ['F', 'O', 'O'], .ldi 3 9, .store 3 3, .load 4 3, .jmp 3].map Instr.record := by decide

/-- Malformed, missing and extra tokens (95_test_vectors.md 2.1). -/
theorem test_assemble_tokens :
    assemble "ADD R1,,R2 , R3 x\nADD\nLDI R1 ; five\nLDI R1,0x10\nLDI r1,+5\nMOV R1, R2\nLDI X,7\nLDI R-1,5".toList =
      [Instr.add 1 2 3, .add 0 0 0, .ldi 1 0, .ldi 1 0, .ldi 1 5, .mov 1 0, .ldi 0 7, .ldi 0 5].map Instr.record := by
  decide

/-- `load` refuses `LDI R9, 5` and accepts an empty program, which is halted at once (P7, 2.8). -/
theorem test_load :
    refusalOf ((cpu [] 0 [] []).load "LDI R9, 5".toList) = some .illFormedRecord ∧
    view ((cpu [1] 3 [(3, 7)] [.nop]).load "; only a comment\n\n".toList) =
      some ([0, 0, 0, 0, 0, 0, 0, 0], 0, []) ∧
    (cpu [] 1 [] [.nop]).isHalted = true ∧ (cpu [] 0 [] [.nop]).isHalted = false := by decide

/-! ### Witnesses: for each obligation with hypotheses, a concrete case that meets all of them -/

/-- What `s` holds in flight, checked. -/
def trackedOk (s : State) (r : Record) : Bool :=
  (s.currentStage == .decode || s.controlSignals == signals r.binary) &&
    (s.currentStage != .writeBack || s.aluResult == aluOf r s)

/-- A check of the invariant on a concrete state. -/
def invCheck (s : State) : Bool :=
  Memory.wf s.dataMemory && s.instructionMemory.all (fun r => r.wellFormed) &&
    (s.currentStage == .fetch ||
      (decide (s.currentInstructionIndex = s.pc ∧ 0 ≤ s.pc ∧ s.pc < s.instructionMemory.length) &&
        s.activeRecord.all (trackedOk s)))

theorem inv_of_check {s : State} (h : invCheck s = true) : s.Inv := by
  simp only [invCheck, Bool.and_eq_true, Bool.or_eq_true, List.all_eq_true, beq_iff_eq, decide_eq_true_eq] at h
  obtain ⟨⟨hm, ha⟩, hs⟩ := h
  refine ⟨hm, ha, fun hf => ?_, fun hf r hr => ?_⟩
  · exact (hs.resolve_left hf).1
  · have ht := (hs.resolve_left hf).2
    rw [hr] at ht
    simp only [Option.all_some, trackedOk, Bool.and_eq_true, Bool.or_eq_true, beq_iff_eq, bne_iff_ne, ne_eq] at ht
    refine ⟨fun he => ht.1.resolve_left fun hd => ?_, fun hw => ht.2.resolve_left fun hn => hn hw⟩
    rw [hd] at he
    simp at he

/-- `s` with the instruction at its `pc` in flight at a stage, the working registers written. -/
def inFlight (st : Stage) (i : Instr) (s : State) : State :=
  { s with
    currentStage := st
    currentInstructionIndex := s.pc
    controlSignals := signals i.record.binary
    aluResult := aluOf i.record s }

/-- The one-instruction program of `i` at a stage, with registers `x`. -/
def at1 (st : Stage) (i : Instr) (x : List Nat) : State := inFlight st i (cpu x 0 [] [i])

/-- One instruction of each constructor, register 7 among the destinations. -/
def samples : List Instr :=
  [.add 7 1 2, .sub 7 1 2, .and 7 1 2, .or 7 1 2, .addi 7 1 (-9), .ldi 7 99, .mov 7 (-99), .load 7 1, .store 1 2,
    .brz 1 (-3), .jmp 1, .nop, .unknown ['F']]

theorem test_witness_DecodeOfEncodeIsTheInstruction :
    [Instr.add 7 0 7, .addi 7 7 7, .addi 0 0 0, .ldi 7 7, .ldi 0 0, .load 7 7, .store 7 7, .brz 7 7, .jmp 7,
      .nop].all Instr.fitsWord = true := by decide

theorem test_witness_DecoderRejectsExactlyUnassignedFields : ∀ t : Tag, opc t ≠ opcodeField 0xFE00#16 := by
  intro t
  cases t <;> (simp only [opc]; decide)

theorem test_witness_DecodedInstructionsEncodeBack :
    decode 0b0000010_111_000_111#16 = .instr (.add 7 0 7) ∧ Tag.add.layout.dest = true ∧ Tag.add.layout.src1 = true := by
  decide

theorem test_witness_WellFormedRecordsAreAssembledRecords :
    (Instr.add 7 0 7).record.wellFormed = true ∧ (Instr.add 7 0 7).wellFormed = true := by decide

theorem test_witness_AssembledRecordsAreConsistent :
    (Instr.ldi 9 5).record ∈ assembleWith [] "LDI R9,5".toList ∧ (Instr.ldi 9 5).record.wellFormed = false := by decide

theorem test_witness_MnemonicsIgnoreLetterCase :
    ("aDd".toList.map Char.toUpper = "ADD".toList.map Char.toUpper) ∧
    tagOfMnemonic mnemonics "aDd".toList ≠ none := by decide

theorem test_witness_MissingOperandsAreZeroExtraOnesIgnored :
    ([['R', '1']] : List (List Char)).length ≤ 1 ∧ operandCount .jmp ≤ ([['R', '1']] : List (List Char)).length := by
  decide

theorem test_witness_ExactlyOneOfTheWritesIsEnabled :
    [0x0000#16, 0x2000#16, 0x4000#16, 0x6000#16, 0x8000#16, 0xA000#16, 0xC000#16, 0xE000#16].map
      (fun b => (b.getLsbD 15, b.getLsbD 14, b.getLsbD 13)) =
    [(false, false, false), (false, false, true), (false, true, false), (false, true, true), (true, false, false),
      (true, false, true), (true, true, false), (true, true, true)] := by decide

theorem test_witness_SignalsDependOnTheOpcodeFieldAlone :
    opcodeField 0x0400#16 = opcodeField 0x05FF#16 ∧
    (∀ k ∈ [15, 14, 13, 9], (0x0000#16).getLsbD k = (0x1DFF#16).getLsbD k) := by decide

theorem test_witness_FetchInsideTheProgram :
    let s := cpu [] 2 [] [.nop, .nop, .nop]
    s.currentStage = .fetch ∧ 0 ≤ s.pc ∧ s.pc < s.instructionMemory.length := by decide

theorem test_witness_HaltedFetchIsAFixedPoint :
    ((cpu [] 3 [] [.nop, .nop, .nop]).instructionMemory.length : Int) ≤ (cpu [] 3 [] [.nop, .nop, .nop]).pc ∧
    (cpu [] 0 [] []).pc = 0 ∧ (cpu [] 0 [] []).instructionMemory = [] ∧
    (cpu [] (-1) [] [.nop]).pc < 0 ∧ (cpu [] (-1) [] [.nop]).currentStage = .fetch := by decide

theorem test_witness_NegativePcComesOnlyFromBrzAndFaults :
    (cpu [] (-1) [] [.nop]).currentStage = .fetch ∧ (cpu [] (-1) [] [.nop]).pc < 0 ∧
    ∃ t, (at1 .writeBack (.brz 1 (-1)) []).Inv ∧ stageStep (at1 .writeBack (.brz 1 (-1)) []) = .next t ∧ t.pc < 0 :=
  ⟨by decide, by decide, _, inv_of_check (by decide), rfl, by decide⟩

theorem test_witness_DecodeWritesTheSignalsOfTheWord :
    let s := at1 .decode (.add 7 1 2) []
    s.currentStage = .decode ∧ s.activeRecord = some (Instr.add 7 1 2).record ∧
      (Instr.add 7 1 2).record.wellFormed = true := by decide

/-- One instruction of each constructor stands in EXECUTE. -/
theorem test_witness_ExecuteComputesTheAluTable :
    ∀ i ∈ samples, (at1 .execute i []).currentStage = .execute ∧
      (at1 .execute i []).activeRecord = some i.record ∧ i.record.wellFormed = true := by decide

/-- STORE, ADD, LOAD, JMP and a taken and an untaken BRZ stand in WRITE_BACK, with the signals of each clause. -/
theorem test_witness_WriteBackAppliesItsStepsInOrder :
    (∀ i ∈ samples, (at1 .writeBack i []).currentStage = .writeBack ∧
      (at1 .writeBack i []).activeRecord = some i.record ∧ i.record.wellFormed = true) ∧
    (at1 .writeBack (.store 1 2) []).controlSignals.MW = true ∧
    (at1 .writeBack (.add 7 1 2) []).controlSignals.RW = true ∧
    (at1 .writeBack (.load 7 1) []).controlSignals.MD = true ∧
    (at1 .writeBack (.jmp 1) []).controlSignals.PL = true ∧ (at1 .writeBack (.jmp 1) []).controlSignals.JB = true ∧
    (at1 .writeBack (.brz 1 (-3)) []).controlSignals.PL = true ∧
    (at1 .writeBack (.brz 1 (-3)) []).controlSignals.JB = false ∧
    (at1 .writeBack (.brz 1 (-3)) []).aluResult = 0 ∧ (at1 .writeBack (.brz 1 (-3)) [0, 1]).aluResult ≠ 0 := by decide

/-- A next state from each of the four stages, and three stage steps from FETCH. -/
theorem test_witness_EachStageWritesOnlyItsOwn :
    (∀ st ∈ [Stage.fetch, .decode, .execute, .writeBack], isNext (stageStep (at1 st (.store 1 2) [])) = true) ∧
    isNext (stageSteps 3 (at1 .fetch (.store 1 2) [])) = true := by decide

theorem test_witness_StagesAreStrictlyCyclic :
    (∀ st ∈ [Stage.fetch, .decode, .execute, .writeBack], isNext (stageStep (at1 st (.jmp 1) [])) = true) ∧
    isNext (stageStep (cpu [] 0 [] [])) = true := by decide

theorem test_witness_HaltedExactlyWhenTheStepChangesNothing :
    isNext ((cpu [1] 5 [(3, 7)] [.nop]).load []) = true := by decide

theorem test_witness_PausedRunsContinueFromTheSameState :
    isNext (stageSteps 2 (cpu [] 0 [] [.ldi 1 5, .nop])) = true := by decide

/-- Destination 7 is the boundary of the completion statements' hypothesis `d < 8`. -/
theorem test_witness_AddCompletesWithTheSum : isNext (exec (.add 7 1 2) (cpu [] 0 [] [])) = true ∧ 7 < 8 := by decide
theorem test_witness_SubCompletesWithTheDifference : isNext (exec (.sub 7 1 2) (cpu [] 0 [] [])) = true ∧ 7 < 8 := by
  decide
theorem test_witness_AndCompletesBitwise : isNext (exec (.and 7 1 2) (cpu [] 0 [] [])) = true ∧ 7 < 8 := by decide
theorem test_witness_OrCompletesInItsMode : isNext (exec (.or 7 1 2) (cpu [] 0 [] [])) = true ∧ 7 < 8 := by decide
theorem test_witness_AddiCompletesWithTheFullImmediate :
    isNext (exec (.addi 7 1 (-9)) (cpu [] 0 [] [])) = true ∧ 7 < 8 := by decide
theorem test_witness_LdiAndMovCompleteWithTheFullImmediate :
    isNext (exec (.ldi 7 99) (cpu [] 0 [] [])) = true ∧ isNext (exec (.mov 7 (-99)) (cpu [] 0 [] [])) = true ∧ 7 < 8 := by
  decide
theorem test_witness_LoadCompletesWithTheCell :
    isNext (exec (.load 7 1) (cpu [0, 65535] 0 [(65535, 1)] [])) = true ∧ 7 < 8 := by decide

theorem test_witness_BrzCompletesTakenExactlyOnZero :
    (cpu [] 3 [] []).rd (some 1) = 0 ∧ (cpu [0, 1] 3 [] []).rd (some 1) ≠ 0 := by decide

theorem test_witness_WritesAboveRegisterSevenAreRefused :
    ∀ i ∈ [Instr.add 8 1 2, .sub 8 1 2, .and 8 1 2, .or 8 1 2, .addi 8 1 0, .ldi 8 0, .mov 8 0, .load 8 1],
      writtenRegister i = some 8 := by decide

theorem test_witness_IllFormedActiveRecordsAreRefused :
    (at1 .writeBack (.ldi 8 5) []).currentStage ≠ .fetch ∧
    (at1 .writeBack (.ldi 8 5) []).activeRecord = some (Instr.ldi 8 5).record ∧
    (Instr.ldi 8 5).record.wellFormed = false ∧ (cpu [] 0 [] [.ldi 8 5]).currentStage = .fetch ∧
    recordAt (cpu [] 0 [] [.ldi 8 5]).instructionMemory 0 = some (Instr.ldi 8 5).record ∧
    (inFlight .decode .nop (cpu [] 1 [] [.nop])).activeRecord = none := by decide

theorem test_witness_RegisterWritersFrame :
    ∀ i ∈ samples.take 8, writtenRegister i = some 7 ∧ isNext (exec i (cpu [0, 3, 5] 0 [(3, 7)] [])) = true := by decide

theorem test_witness_StoreFrame : isNext (exec (.store 1 2) (cpu [0, 65535, 5] 0 [(3, 7)] [])) = true := by decide

theorem test_witness_TransferAndNopFrame :
    ∀ i ∈ samples.drop 9, writtenRegister i = none ∧ i.tag ≠ .store ∧
      isNext (exec i (cpu [0, 3, 5] 0 [(3, 7)] [])) = true := by decide

theorem test_witness_NextPcOfEveryTag : ∀ i ∈ samples, isNext (exec i (cpu [0, 3, 5] 0 [(3, 7)] [])) = true := by decide

theorem test_witness_StepChangesOnlyWhatItsInstructionWrites :
    (∃ t, step (cpu [0, 3, 5] 0 [] [.store 1 2]) = .next t ∧
      Memory.cell t.dataMemory 3 ≠ Memory.cell (cpu [0, 3, 5] 0 [] [.store 1 2]).dataMemory 3) ∧
    (∃ t, step (cpu [0, 3, 5] 0 [] [.add 7 1 2]) = .next t ∧
      t.rd (some 7) ≠ (cpu [0, 3, 5] 0 [] [.add 7 1 2]).rd (some 7)) :=
  ⟨⟨_, rfl, by decide⟩, ⟨_, rfl, by decide⟩⟩

/-- The state after the STORE is itself a later state, with the address still in register 1. -/
theorem test_witness_StoreThenLoadReturnsTheValue :
    ∃ t, exec (.store 1 2) (cpu [0, 3, 5] 0 [] []) = .next t ∧ t.rd (some 1) = (cpu [0, 3, 5] 0 [] []).rd (some 1) ∧
      7 < 8 :=
  ⟨_, rfl, by decide, by decide⟩

theorem test_witness_StepRunsTheInstructionAtPc :
    ∀ i ∈ samples, (cpu [] 0 [] [i]).currentStage = .fetch ∧ i.wellFormed = true ∧
      recordAt (cpu [] 0 [] [i]).instructionMemory (cpu [] 0 [] [i]).pc = some i.record := by decide

theorem test_witness_StepRunsThePlacedWord :
    decodeTableWord 16 0xE038 = some (.jmp 7) ∧ 0 ≤ (cpu [] 2 [] []).pc ∧ (8 ≠ 16) ∧ (32 ≠ 16) ∧
    ∀ t : Tag, opc t ≠ opcodeField (BitVec.ofNat 16 0xFE00) :=
  ⟨by decide, by decide, by decide, by decide, fun t => by cases t <;> (simp only [opc]; decide)⟩

/-- A state of width 32, under the other OR mode and opcode table, meets the invariant and steps. -/
theorem test_witness_EveryParameterChoiceKeepsTheInvariant :
    let p := { defaultParams with opc := otherTable, aluOrMode := .bitwiseOr }
    let s := cpuWith 32 otherTable [0, 6, 3] 0 [] [.or 3 1 2]
    s.Inv p ∧ isNext (stageStep s p) = true ∧ isNext (stepWith p s) = true := by
  refine ⟨⟨by decide, by simp only [State.Accepted]; decide, fun h => absurd rfl h, fun h => absurd rfl h⟩, by decide,
    by decide⟩

theorem test_witness_EveryParameterChoiceCompletes : OpcAdmissible otherTable ∧ 7 < 8 :=
  ⟨by simp [OpcAdmissible, topBitsAre, opc, otherTable], by decide⟩

theorem test_witness_AnyAdmissibleOpcodeTableRunsAlike :
    OpcAdmissible opc ∧ ∀ i ∈ samples, isNext (exec i (cpu [0, 3, 5] 0 [(3, 7)] [])) = true :=
  ⟨by simp [OpcAdmissible, topBitsAre, opc], by decide⟩

/-- A state in each stage meets the invariant and steps. -/
theorem test_witness_EveryStageStepKeepsTheInvariant :
    ∀ st ∈ [Stage.fetch, .decode, .execute, .writeBack],
      (at1 st (.store 1 2) [0, 3, 5]).Inv ∧ isNext (stageStep (at1 st (.store 1 2) [0, 3, 5])) = true := by
  intro st hst
  fin_cases hst <;> exact ⟨inv_of_check (by decide), by decide⟩

theorem test_witness_EveryStepKeepsTheInvariant :
    ∀ st ∈ [Stage.fetch, .decode, .execute, .writeBack],
      (at1 st (.add 7 1 2) [0, 3, 5]).Inv ∧ isNext (step (at1 st (.add 7 1 2) [0, 3, 5])) = true := by
  intro st hst
  fin_cases hst <;> exact ⟨inv_of_check (by decide), by decide⟩

theorem test_witness_StepsAreTotalAboveNegativePc :
    (at1 .writeBack (.brz 1 (-1)) []).Inv ∧ 0 ≤ (at1 .writeBack (.brz 1 (-1)) []).pc :=
  ⟨inv_of_check (by decide), by decide⟩

/-- Two instructions left of three, and none left. -/
theorem test_witness_StraightLineProgramsHaltAfterFourStepsEach :
    (cpu [] 1 [] [.jmp 0, .ldi 1 5, .nop]).Inv ∧
    (cpu [] 1 [] [.jmp 0, .ldi 1 5, .nop]).pc + (2 : Nat) = 3 ∧
    (∀ k : Int, 1 ≤ k → k < 3 → ∃ i : Instr,
      recordAt (cpu [] 1 [] [.jmp 0, .ldi 1 5, .nop]).instructionMemory k = some i.record ∧ isTransfer i = false) ∧
    (cpu [] 3 [] [.jmp 0, .ldi 1 5, .nop]).pc + (0 : Nat) = 3 := by
  refine ⟨inv_of_check (by decide), by decide, fun k h1 h2 => ?_, by decide⟩
  obtain rfl | rfl : k = 1 ∨ k = 2 := by omega
  · exact ⟨.ldi 1 5, by decide, rfl⟩
  · exact ⟨.nop, by decide, rfl⟩

theorem test_witness_TakenBrzToItselfNeverHalts :
    let s := cpu [] 0 [] [.brz 7 0]
    s.currentStage = .fetch ∧ (Instr.brz 7 0).wellFormed = true ∧
      recordAt s.instructionMemory s.pc = some (Instr.brz 7 0).record ∧ s.rd (some 7) = 0 := by decide

theorem test_witness_LoadReplacesTheProgramAndResets :
    isNext ((cpu [1] 5 [(3, 7)] [.nop]).load "ld r7, r1".toList) = true := by decide

theorem test_witness_LoadRefusesExactlyRegistersAboveSeven :
    (∃ r ∈ assemble "LDI R8,5".toList, r.indicesOk = false) ∧
    (∀ r ∈ assemble "LDI R7,5".toList, r.indicesOk = true) := by decide

end Sys2Proof.Tests
end

section
/-! The machine under every choice of the open parameters (spec/00_scope.md R4): each stage, and so each stage step, run
of stage steps and step over one instruction, keeps the invariant taken at those parameters. -/

namespace Sys2Proof.Machine

variable {xlen : Nat} {p : Params} {s t : State xlen} {r : Record}

/-! ### The invariant, stage by stage -/

/-- In FETCH the invariant speaks of the data memory and the program alone. -/
theorem inv_of_fetch (hs : s.currentStage = .fetch) (hm : Memory.wf s.dataMemory = true) (ha : s.Accepted p.opc) :
    s.Inv p :=
  ⟨hm, ha, fun h => absurd hs h, fun h => absurd hs h⟩

theorem fetched_inv (hi : s.Inv p) (h0 : 0 ≤ s.pc) (h1 : s.pc < s.instructionMemory.length) : s.fetched.Inv p where
  memory := hi.memory
  accepted := hi.accepted
  inFlight _ := ⟨rfl, h0, h1⟩
  working _ _ _ := ⟨by simp, by simp⟩

theorem decoded_inv (hi : s.Inv p) (hs : s.currentStage = .decode) (ha : s.activeRecord = some r) :
    (s.decoded r).Inv p where
  memory := hi.memory
  accepted := hi.accepted
  inFlight _ := hi.inFlight (by simp [hs])
  working _ r' hr' := by
    have hr : r = r' := Option.some.inj (ha.symm.trans hr')
    exact ⟨fun _ => by rw [← hr, decoded_controlSignals], by simp⟩

theorem executed_inv (hi : s.Inv p) (hs : s.currentStage = .execute) (ha : s.activeRecord = some r) :
    (s.executed (aluOf r s p.aluOrMode)).Inv p where
  memory := hi.memory
  accepted := hi.accepted
  inFlight _ := hi.inFlight (by simp [hs])
  working _ r' hr' := by
    have hr : r = r' := Option.some.inj (ha.symm.trans hr')
    obtain ⟨hsig, -⟩ := hi.working (by simp [hs]) r' hr'
    exact ⟨fun _ => hsig (.inl hs), fun _ => by rw [← hr, executed_aluResult]; exact aluOf_congr r _ rfl⟩

/-- The memory write of WRITE_BACK keeps the canonical form of the data memory. -/
theorem storeStep_wf (s : State xlen) (r : Record) (h : Memory.wf s.dataMemory = true) :
    Memory.wf (s.storeStep r).dataMemory = true := by
  unfold State.storeStep
  split
  · exact memWrite_wf s _ _ h
  · exact h

/-- The register write of WRITE_BACK leaves the data memory alone. -/
theorem registerStep_dataMemory (h : s.registerStep r = .next t) : t.dataMemory = s.dataMemory := by
  rcases registerStep_next h with ⟨-, d, -, -, rfl⟩ | ⟨-, rfl⟩ <;> rfl

theorem writeBack_wf (hm : Memory.wf s.dataMemory = true) (h : s.writeBack r p = .next t) :
    Memory.wf t.dataMemory = true := by
  obtain ⟨s₁, s₂, rfl, h₂, rfl⟩ := writeBack_next h
  rw [pcStep_dataMemory, registerStep_dataMemory h₂]
  exact storeStep_wf s r hm

theorem writeBack_inv (hi : s.Inv p) (h : s.writeBack r p = .next t) : t.Inv p := by
  obtain ⟨hs, him, -⟩ := writeBack_kept h
  refine inv_of_fetch hs (writeBack_wf hi.memory h) ?_
  rw [State.Accepted, him]
  exact hi.accepted

/-! ### The invariant along a run -/

/-- A stage step keeps the invariant. -/
theorem stageStep_inv (hi : s.Inv p) (h : stageStep s p = .next t) : t.Inv p := by
  rcases stageStep_next h with ⟨-, h0, h1, rfl⟩ | ⟨-, -, rfl⟩ | ⟨r, ha, -, ⟨hs, rfl⟩ | ⟨hs, rfl⟩ | ⟨-, hwb⟩⟩
  · exact fetched_inv hi h0 h1
  · exact hi
  · exact decoded_inv hi hs ha
  · exact executed_inv hi hs ha
  · exact writeBack_inv hi hwb

/-- Any number of stage steps keeps the invariant. -/
theorem stageSteps_inv (n : Nat) (hi : s.Inv p) (h : stageSteps n s p = .next t) : t.Inv p := by
  induction n generalizing s with
  | zero => cases h; exact hi
  | succ n ih =>
    cases hs : stageStep s p with
    | next u => exact ih (stageStep_inv hi hs) (stageSteps_succ_next n hs ▸ h)
    | fault f => simp [stageSteps, hs] at h
    | refused q => simp [stageSteps, hs] at h

/-- The rest of an instruction in flight is a number of stage steps. -/
theorem finishInstruction_next (n : Nat) (h : finishInstruction n s p = .next t) :
    ∃ m, stageSteps m s p = .next t := by
  induction n generalizing s with
  | zero => exact ⟨0, h⟩
  | succ n ih =>
    rw [finishInstruction] at h
    split at h
    · exact ⟨0, h⟩
    · split at h
      · rename_i u hu
        obtain ⟨m, hm⟩ := ih h
        exact ⟨m + 1, by rw [stageSteps_succ_next m hu, hm]⟩
      · cases h
      · cases h

/-- A step over one instruction that answers a next state is a number of stage steps. -/
theorem stepWith_next (h : stepWith p s = .next t) : ∃ m, stageSteps m s p = .next t := by
  rw [stepWith, instructionStep] at h
  split at h
  · rename_i hs
    rcases fetchAndExec_next h with ⟨-, rfl⟩ | ⟨i, hi, hr, hx⟩
    · exact ⟨0, rfl⟩
    · exact ⟨4, by rw [stageSteps_four hs hi hr, hx]⟩
  all_goals exact finishInstruction_next _ h

/-- A step over one instruction keeps the invariant. -/
theorem stepWith_inv (hi : s.Inv p) (h : stepWith p s = .next t) : t.Inv p :=
  let ⟨m, hm⟩ := stepWith_next h
  stageSteps_inv m hi hm

/-- Settles O59: each stage keeps the invariant, and a step over one instruction is a number of stage steps. -/
theorem everyParameterChoiceKeepsTheInvariant : Obligations.EveryParameterChoiceKeepsTheInvariant :=
  fun _ _ _ _ hi => ⟨stageStep_inv hi, stepWith_inv hi⟩

end Sys2Proof.Machine
end

section
/-! How each kind of instruction completes under every admissible opcode table (spec/30_encoding.md R74): a register
writer, STORE, or an instruction that writes only `pc`. -/

namespace Sys2Proof.Machine

variable {xlen : Nat} {p : Params} {i : Instr}

theorem isTransfer_of_writtenRegister {d : Nat} (hi : writtenRegister i = some d) : isTransfer i = false := by
  cases i with
  | brz | jmp => cases hi
  | _ => rfl

/-- A register writer with a destination in `[0, 7]` leaves there the ALU's value, or for LOAD the cell it names, and
goes on to `pc + 1`. -/
theorem execWith_register (ho : OpcAdmissible p.opc) {d : Nat} (hd : d < Config.nreg) (hi : writtenRegister i = some d)
    (s : State xlen) :
    ∃ t, execWith p i s = .next t ∧ t.pc = p.pcDomain (s.pc + 1) ∧
      t.rd (some d) = if i.tag = .load then s.memRead (aluOf (i.recordWith p.opc) s p.aluOrMode)
        else aluOf (i.recordWith p.opc) s p.aluOrMode := by
  refine ⟨_, by rw [execWith_eq_run, run_register p ho hi, if_pos hd], ?_, ?_⟩
  · rw [pcStep_pc, nextPc_of ho i rfl, muxPc_of_not_transfer (isTransfer_of_writtenRegister hi)]
    rfl
  · rw [rd_pcStep, rd_setReg _ hd, if_pos rfl]

/-- Where the ALU wraps an exact integer `v`, a register writer other than LOAD leaves `v` modulo `2^XLEN`. -/
theorem execWith_register_wrap (ho : OpcAdmissible p.opc) {d : Nat} (hd : d < Config.nreg)
    (hi : writtenRegister i = some d) (hl : i.tag ≠ .load) (s : State xlen) {v : Int}
    (hv : aluOf (i.recordWith p.opc) s p.aluOrMode = wrap v) :
    ∃ t, execWith p i s = .next t ∧ t.pc = p.pcDomain (s.pc + 1) ∧ ((t.rd (some d)).toNat : Int) = v % 2 ^ xlen := by
  obtain ⟨t, ht, hpc, hr⟩ := execWith_register ho hd hi s
  exact ⟨t, ht, hpc, by rw [hr, if_neg hl, hv, toNat_wrap_width]⟩

/-- STORE writes its cell and goes on to `pc + 1`. -/
theorem execWith_store (ho : OpcAdmissible p.opc) (a b : Nat) (s : State xlen) :
    ∃ t, execWith p (.store a b) s = .next t ∧ t.pc = p.pcDomain (s.pc + 1) ∧
      Memory.cell t.dataMemory (s.rd (some a)).toNat = some (s.rd (some b)) := by
  refine ⟨_, by rw [execWith_eq_run, run_store p ho], ?_, ?_⟩
  · rw [pcStep_pc, nextPc_of ho _ rfl]
    rfl
  · exact cell_put_same _ _ _

/-- BRZ, JMP, NOP and an unrecognised mnemonic keep the registers and the data memory; the PC mux gives the next `pc`,
from the state the instruction's WRITE_BACK starts from. -/
theorem execWith_pc (ho : OpcAdmissible p.opc) (hi : writtenRegister i = none) (hs : ∀ a b, i ≠ .store a b)
    (s : State xlen) :
    ∃ t, execWith p i s = .next t ∧
      t.pc = p.pcDomain (muxPc i (beforeWriteBack (i.recordWith p.opc) (aluOf (i.recordWith p.opc) s p.aluOrMode) s)) ∧
      t.registers = s.registers ∧ t.dataMemory = s.dataMemory := by
  refine ⟨_, by rw [execWith_eq_run, run_pc p ho hi hs], ?_, ?_, ?_⟩
  · rw [pcStep_pc, nextPc_of ho i rfl]
  · rfl
  · rfl

/-- Settles O60, by the kind of each instruction and the value the ALU gives it. -/
theorem everyParameterChoiceCompletes : Obligations.EveryParameterChoiceCompletes := by
  refine ⟨exec_eq_execWith, fun xlen p s d a b k ho hd => ?_⟩
  have writes {i : Instr} (hi : writtenRegister i = some d) := execWith_register ho hd hi s
  have wraps {i : Instr} {v : Int} (hi : writtenRegister i = some d) (hl : i.tag ≠ .load)
      (hv : aluOf (i.recordWith p.opc) s p.aluOrMode = wrap v) := execWith_register_wrap ho hd hi hl s hv
  refine ⟨?add, ?sub, ?and, ?addi, ?ldi, ?mov, ?or, ?load, execWith_store ho a b s, ?brz, ?jmp, ?nop⟩
  case sub => exact wraps (i := .sub d a b) rfl nofun rfl
  case addi => exact wraps (i := .addi d a k) rfl nofun rfl
  case ldi => exact wraps (i := .ldi d k) rfl nofun rfl
  case mov => exact wraps (i := .mov d k) rfl nofun rfl
  case add =>
    obtain ⟨t, ht, hpc, hr⟩ := wraps (i := .add d a b) rfl nofun rfl
    exact ⟨t, ht, hpc, by exact_mod_cast hr⟩
  case and => exact writes (i := .and d a b) rfl
  case load => exact writes (i := .load d a) rfl
  case or =>
    obtain ⟨t, ht, hpc, hr⟩ := writes (i := .or d a b) rfl
    replace hr : t.rd (some d) = aluOr p.aluOrMode (s.rd (some a)) (s.rd (some b)) := hr
    exact ⟨t, ht, hpc, fun hm => by rw [hr, hm]; rfl, fun hm => by rw [hr, hm]; rfl⟩
  case brz =>
    obtain ⟨t, ht, hpc, -⟩ := execWith_pc (i := .brz a k) ho rfl nofun s
    exact ⟨t, ht, hpc⟩
  case jmp =>
    obtain ⟨t, ht, hpc, -⟩ := execWith_pc (i := .jmp a) ho rfl nofun s
    exact ⟨t, ht, hpc⟩
  case nop =>
    rintro i (rfl | ⟨text, rfl⟩)
    · exact execWith_pc (i := .nop) ho rfl nofun s
    · exact execWith_pc (i := .unknown text) ho rfl nofun s

end Sys2Proof.Machine
end

section
/-! The state and its invariant (spec/10_state.md): what each stage step writes and leaves alone, and the invariant of
the machine at the parameters' defaults. -/

namespace Sys2Proof.Machine

variable {xlen : Nat} {p : Params} {s t : State xlen} {r : Record}

/-! ### The invariant at the defaults -/

/-- Settles O51: the stage step keeps the invariant at every choice of the parameters, so at the defaults. -/
theorem everyStageStepKeepsTheInvariant : Obligations.EveryStageStepKeepsTheInvariant :=
  fun _ _ hi h => stageStep_inv hi h

/-- Settles O52: `step` is the step over one instruction at the defaults, which keeps the invariant. -/
theorem everyStepKeepsTheInvariant : Obligations.EveryStepKeepsTheInvariant :=
  fun s _ hi h => stepWith_inv hi (step_eq_stepWith s ▸ h)

/-- Settles O50: the reset state stands in FETCH with an empty data memory and no program. -/
theorem resetMeetsTheInvariant : Obligations.ResetMeetsTheInvariant :=
  inv_of_fetch rfl reset_memory_wf (accepted_of_programOk rfl)

/-! ### What one stage step writes (R36) -/

/-- WRITE_BACK writes registers, data memory, `pc` and the stage, and nothing else. -/
theorem writeBack_writes (h : s.writeBack r p = .next t) :
    t = { s with
      registers := t.registers, dataMemory := t.dataMemory, pc := t.pc, currentStage := t.currentStage } := by
  obtain ⟨-, him, hc, ha, hx⟩ := writeBack_kept h
  rw [← him, ← hc, ← ha, ← hx]

/-- Before WRITE_BACK a stage step writes no register, no data cell and not `pc`. -/
theorem stageStep_kept (hs : s.currentStage ≠ .writeBack) (h : stageStep s p = .next t) :
    t.registers = s.registers ∧ t.dataMemory = s.dataMemory ∧ t.pc = s.pc := by
  rcases stageStep_next h with ⟨-, -, -, rfl⟩ | ⟨-, -, rfl⟩ | ⟨r, -, -, ⟨-, rfl⟩ | ⟨-, rfl⟩ | ⟨hw, -⟩⟩
  · exact ⟨rfl, rfl, rfl⟩
  · exact ⟨rfl, rfl, rfl⟩
  · exact ⟨rfl, rfl, rfl⟩
  · exact ⟨rfl, rfl, rfl⟩
  · exact absurd hw hs

/-- A stage step brings the end of the instruction nearer by one stage step at most. -/
theorem stagesLeft_le (h : stageStep s p = .next t) :
    stagesLeft s.currentStage ≤ stagesLeft t.currentStage + 1 := by
  rcases stageStep_next h with ⟨hs, -, -, rfl⟩ | ⟨-, -, rfl⟩ | ⟨r, -, -, ⟨hs, rfl⟩ | ⟨hs, rfl⟩ | ⟨hs, -⟩⟩
  · rw [hs]; rfl
  · exact Nat.le_succ _
  · rw [hs]; rfl
  · rw [hs]; rfl
  · rw [hs]; exact Nat.le_add_left _ _

/-! ### What runs of stage steps leave alone -/

/-- A run of `n + 1` stage steps that answers a next state is a stage step and a run of `n`. -/
theorem stageSteps_succ_split {n : Nat} (h : stageSteps (n + 1) s p = .next t) :
    ∃ u, stageStep s p = .next u ∧ stageSteps n u p = .next t := by
  rw [stageSteps] at h
  split at h
  · exact ⟨_, ‹_›, h⟩
  · cases h
  · cases h

/-- Fewer stage steps than the instruction in flight has left never reach WRITE_BACK's writes. -/
theorem stageSteps_kept {n : Nat} (hn : n < stagesLeft s.currentStage) (h : stageSteps n s p = .next t) :
    t.registers = s.registers ∧ t.dataMemory = s.dataMemory ∧ t.pc = s.pc := by
  induction n generalizing s with
  | zero => cases h; exact ⟨rfl, rfl, rfl⟩
  | succ n ih =>
    obtain ⟨u, hu, ht⟩ := stageSteps_succ_split h
    have hs : s.currentStage ≠ .writeBack := fun hs => by simp [hs, stagesLeft] at hn
    have hle := stagesLeft_le hu
    obtain ⟨hr, hm, hpc⟩ := ih (by omega) ht
    obtain ⟨hr', hm', hpc'⟩ := stageStep_kept hs hu
    exact ⟨hr.trans hr', hm.trans hm', hpc.trans hpc'⟩

/-- No run of stage steps changes the program (20_memory.md R41). -/
theorem stageSteps_instructionMemory {n : Nat} (h : stageSteps n s p = .next t) :
    t.instructionMemory = s.instructionMemory := by
  induction n generalizing s with
  | zero => cases h; rfl
  | succ n ih =>
    obtain ⟨u, hu, ht⟩ := stageSteps_succ_split h
    exact (ih ht).trans (stageStep_instructionMemory hu)

/-- No step over one instruction changes the program, from any stage (20_memory.md R41). -/
theorem stepWith_instructionMemory (h : stepWith p s = .next t) : t.instructionMemory = s.instructionMemory :=
  let ⟨_, hm⟩ := stepWith_next h
  stageSteps_instructionMemory hm

/-- Settles O21: the cases of one stage step, and the runs that end before WRITE_BACK. -/
theorem eachStageWritesOnlyItsOwn : Obligations.EachStageWritesOnlyItsOwn := by
  refine ⟨fun s t h => ?_, fun s t n hs hn h => ?_⟩
  · rcases stageStep_next h with ⟨hs, -, -, rfl⟩ | ⟨hs, -, rfl⟩ | ⟨r, -, -, ⟨hs, rfl⟩ | ⟨hs, rfl⟩ | ⟨hs, hwb⟩⟩ <;>
      rw [hs]
    · exact ⟨fun _ => ⟨s.pc, .decode, rfl⟩, nofun, nofun, nofun⟩
    · exact ⟨fun _ => ⟨t.currentInstructionIndex, t.currentStage, rfl⟩, nofun, nofun, nofun⟩
    · exact ⟨nofun, fun _ => ⟨signals r.binary, .execute, rfl⟩, nofun, nofun⟩
    · exact ⟨nofun, nofun, fun _ => ⟨aluOf r s, .writeBack, rfl⟩, nofun⟩
    · exact ⟨nofun, nofun, nofun, fun _ => ⟨_, _, _, _, writeBack_writes hwb⟩⟩
  · obtain ⟨hr, hm, hpc⟩ := stageSteps_kept (by rw [hs]; exact Nat.lt_succ_of_le hn) h
    exact ⟨fun _ => rd_congr hr _, fun _ => by rw [hm], hpc⟩

end Sys2Proof.Machine
end

section
/-! Frames of one whole instruction (spec/10_state.md R20, spec/20_memory.md R41, R42): what `exec` leaves alone, and so
what a step from FETCH changes. -/

namespace Sys2Proof.Machine

variable {i : Instr} {s t : State}

/-- A register that an instruction does not write reads as before (R20). -/
theorem exec_rd_kept (h : exec i s = .next t) {n : Nat} (hn : writtenRegister i ≠ some n) :
    t.rd (some n) = s.rd (some n) := by
  rcases exec_next h with ⟨d, hd, hlt, rfl⟩ | ⟨a, b, rfl, rfl⟩ | ⟨-, -, rfl⟩
  · have hne : n ≠ d := fun e => hn (e ▸ hd)
    rw [rd_pcStep, rd_setReg _ hlt, if_neg hne, rd_beforeWriteBack]
  · rw [rd_pcStep, rd_memWrite, rd_beforeWriteBack]
  · rw [rd_pcStep, rd_beforeWriteBack]

/-- A data cell is as before unless the instruction is a STORE to it (R42). -/
theorem exec_cell_kept (h : exec i s = .next t) {x : Nat} (hx : ∀ a b, i = .store a b → x ≠ (s.rd (some a)).toNat) :
    Memory.cell t.dataMemory x = Memory.cell s.dataMemory x := by
  rcases exec_next h with ⟨d, -, -, rfl⟩ | ⟨a, b, rfl, rfl⟩ | ⟨-, -, rfl⟩
  · rfl
  · exact cell_put_other _ _ (hx a b rfl)
  · rfl

/-- No instruction changes the program (R41). -/
theorem exec_instructionMemory (h : exec i s = .next t) : t.instructionMemory = s.instructionMemory := by
  rcases exec_next h with ⟨d, -, -, rfl⟩ | ⟨a, b, -, rfl⟩ | ⟨-, -, rfl⟩ <;> rfl

/-- Settles O39: an instruction with a destination writes no other register, and is no STORE. -/
theorem registerWritersFrame : Obligations.RegisterWritersFrame := by
  intro i d s t hd h
  refine ⟨fun n hn => exec_rd_kept h ?_, fun x => exec_cell_kept h ?_, exec_instructionMemory h⟩
  · rw [hd]
    exact fun e => hn (Option.some.inj e).symm
  · rintro a b rfl
    cases hd

/-- A step from FETCH that changes anything ran the instruction at `pc`. -/
theorem step_ran_of_ne (hs : s.currentStage = .fetch) (h : step s = .next t) (hne : t ≠ s) :
    ∃ i, recordAt s.instructionMemory s.pc = some i.record ∧ exec i s = .next t := by
  rw [step_fetch hs] at h
  rcases fetchAndExec_next h with ⟨-, rfl⟩ | ⟨i, -, hr, hx⟩
  · exact absurd rfl hne
  · exact ⟨i, hr, hx⟩

/-- Settles O43: from FETCH by the frames of the instruction at `pc`, and from any stage by those of the stage steps. -/
theorem stepChangesOnlyWhatItsInstructionWrites : Obligations.StepChangesOnlyWhatItsInstructionWrites := by
  refine ⟨fun s t x hs h hx => ?cell, fun s t n hs h hn => ?register, fun s t h => ?program⟩
  case cell =>
    obtain ⟨i, hr, hi⟩ := step_ran_of_ne hs h fun e => hx (by rw [e])
    by_contra hno
    exact hx (exec_cell_kept hi fun a b hstore hxa => hno ⟨a, b, hstore ▸ hr, hxa⟩)
  case register =>
    obtain ⟨i, hr, hi⟩ := step_ran_of_ne hs h fun e => hn (by rw [e])
    exact ⟨i, hr, by_contra fun hw => hn (exec_rd_kept hi hw)⟩
  case program => exact stepWith_instructionMemory (step_eq_stepWith s ▸ h)

end Sys2Proof.Machine
end

section
/-! Well-formed records and assembled records (spec/10_state.md R27, spec/30_encoding.md R80). -/

namespace Sys2Proof.Machine

/-- Settles O8: a well-formed record is the one assembled from its own instruction. -/
theorem wellFormedRecordsAreAssembledRecords : Obligations.WellFormedRecordsAreAssembledRecords := by
  refine fun r => ⟨fun h => ?_, ?_⟩
  · have hr : r.toInstr.record = r := toInstr_record r h
    exact ⟨r.toInstr, by rw [← record_wellFormed, hr, h], hr⟩
  · rintro ⟨i, hi, rfl⟩
    rw [record_wellFormed, hi]

/-- Of the three parts of R27 an assembled record can miss (iii) alone. -/
theorem recordWith_wellFormed_eq_indicesOk (o : Tag → BitVec 7) (i : Instr) :
    (i.recordWith o).wellFormed o = (i.recordWith o).indicesOk := by
  rw [Record.wellFormed, recordWith_layoutOk, recordWith_binaryOk, Bool.and_self, Bool.true_and]

/-- Every record of a text is assembled from an instruction. -/
theorem exists_instr_of_mem_assembleWith {aliases : List (List Char × Tag)} {text : List Char} {o : Tag → BitVec 7}
    {imm : Int → Int} {r : Record} (h : r ∈ assembleWith aliases text o imm) : ∃ i : Instr, i.recordWith o = r :=
  let ⟨_, _, hr⟩ := List.mem_map.mp h
  ⟨_, hr⟩

/-- Settles O9: every record of the text is assembled from an instruction, so only a register index can be wrong. -/
theorem assembledRecordsAreConsistent : Obligations.AssembledRecordsAreConsistent := by
  intro aliases text r hr
  obtain ⟨i, rfl⟩ := exists_instr_of_mem_assembleWith hr
  exact ⟨recordWith_layoutOk opc i, recordWith_binaryOk opc i,
    fun h => by rwa [recordWith_wellFormed_eq_indicesOk] at h⟩

end Sys2Proof.Machine
end

section
/-! What an instruction's word carries and what the decoder reads back from it (spec/30_encoding.md R60 to R76). -/

namespace Sys2Proof

/-! ### Three-bit fields as numbers (R63) -/

theorem regField_toNat (f : Option Nat) : (regField f).toNat = f.getD 0 % 8 := by
  cases f with
  | none => rfl
  | some n => exact field3_natCast n

theorem intField_toNat (f : Option Int) : ((intField f).toNat : Int) = f.getD 0 % 8 := by
  cases f with
  | none => rfl
  | some k => exact field3_toNat_int k

/-- A field of a word is the field of its own value. -/
theorem field3_toNat (b : BitVec 3) : field3 b.toNat = b :=
  BitVec.eq_of_toNat_eq (by rw [field3_natCast, Nat.mod_eq_of_lt b.isLt])

/-- Settles O2: the 32-bit step loses nothing that the residue modulo 8 keeps. -/
theorem fieldIsTheLowThreeBits : Obligations.FieldIsTheLowThreeBits :=
  ⟨fun v => ⟨by rw [field3_toNat_int]; omega, field3_toNat_int v⟩, field3_natCast, field3_toNat_int, rfl, rfl, by decide⟩

/-! ### The word as a number (R65) -/

/-- The third field is that of `src2` if set, else of `immediate` if set, else of `address`. -/
theorem thirdOf_eq (r : Record) :
    thirdOf r = if r.src2.isSome then regField r.src2
      else if r.immediate.isSome then intField r.immediate else intField r.address := by
  unfold thirdOf
  split <;> simp [*]

/-- The third field as a number. -/
theorem thirdOf_toNat (r : Record) :
    ((thirdOf r).toNat : Int) = if r.src2.isSome then ((r.src2.getD 0 : Nat) : Int) % 8
      else if r.immediate.isSome then r.immediate.getD 0 % 8 else r.address.getD 0 % 8 := by
  rw [thirdOf_eq]
  split
  · rw [regField_toNat, Int.natCast_emod]; rfl
  · split <;> exact intField_toNat _

/-- Concatenation as a number. -/
theorem toNat_append_eq_mul_add {m n : Nat} (x : BitVec m) (y : BitVec n) : (x ++ y).toNat = x.toNat * 2 ^ n + y.toNat := by
  rw [BitVec.toNat_append, ← Nat.shiftLeft_add_eq_or_of_lt y.isLt, Nat.shiftLeft_eq]

theorem encodeRecordWith_toNat (o : Tag → BitVec 7) (r : Record) :
    (encodeRecordWith o r).toNat =
      (o r.opcode).toNat * 512 + (r.dest.getD 0 % 8) * 64 + (r.src1.getD 0 % 8) * 8 + (thirdOf r).toNat := by
  simp only [encodeRecordWith, toNat_append_eq_mul_add, regField_toNat]
  omega

/-- Settles O3: the concatenation by the definition of the third field, the number by that of concatenation. -/
theorem encodeConcatenatesFourFields : Obligations.EncodeConcatenatesFourFields := by
  refine fun o r => ⟨by rw [← thirdOf_eq]; rfl, ?_⟩
  rw [← thirdOf_toNat, encodeRecordWith_toNat]
  push_cast
  rfl

/-! ### Decoding an instruction's word (R66, R67) -/

@[simp] theorem opcodeField_encode (i : Instr) : opcodeField (encode i) = opc i.tag := by
  rw [encode, encodeRecord, opcodeField_encodeRecordWith, fields_opcode]

@[simp] theorem destField_encode (i : Instr) : destField (encode i) = regField i.fields.dest :=
  destField_encodeRecordWith opc i.fields

@[simp] theorem src1Field_encode (i : Instr) : src1Field (encode i) = regField i.fields.src1 :=
  src1Field_encodeRecordWith opc i.fields

@[simp] theorem thirdField_encode (i : Instr) : thirdField (encode i) = thirdOf i.fields :=
  thirdField_encodeRecordWith opc i.fields

/-- The pattern of an instruction's tag reads back as the tag of the instruction's residue. -/
theorem tagOfField_opc_tag (i : Instr) : tagOfField (opc i.tag) = some i.readBack.tag := by
  cases i <;> rfl

/-- What the decoder reads from an instruction's word: the tag by its pattern and the three operand fields. -/
theorem decode_encode_fields (i : Instr) :
    decode (encode i) = .instr (instrOfFields i.readBack.tag (regField i.fields.dest).toNat
      (regField i.fields.src1).toNat (thirdOf i.fields).toNat) := by
  rw [decode, opcodeField_encode, tagOfField_opc_tag, destField_encode, src1Field_encode, thirdField_encode]

/-- The operand fields of an instruction, read under the tag of its residue, are its residue. -/
theorem instrOfFields_encoded (i : Instr) :
    instrOfFields i.readBack.tag (regField i.fields.dest).toNat (regField i.fields.src1).toNat
      (thirdOf i.fields).toNat = i.readBack := by
  cases i <;>
    simp [Instr.readBack, Instr.tag, instrOfFields, Instr.fields, thirdOf, regField_toNat, intField_toNat, mod8]

/-- Settles O4: the word carries the tag's pattern and each operand's residue modulo 8. -/
theorem decodeOfEncodeIsTheResidue : Obligations.DecodeOfEncodeIsTheResidue :=
  fun i => by rw [decode_encode_fields, instrOfFields_encoded]

/-- An instruction that a word carries whole is its own residue. -/
theorem readBack_of_fitsWord {i : Instr} (h : i.fitsWord = true) : i.readBack = i := by
  have reg {n : Nat} (hn : regIndexOk n = true) : n % 8 = n := Nat.mod_eq_of_lt (of_decide_eq_true hn)
  have imm {k : Int} (h0 : 0 ≤ k) (h8 : k < 8) : mod8 k = k := Int.emod_eq_of_lt h0 h8
  cases i <;> simp_all [Instr.fitsWord, Instr.wellFormed, Instr.readBack]

/-- Settles O5: such an instruction is its own residue. -/
theorem decodeOfEncodeIsTheInstruction : Obligations.DecodeOfEncodeIsTheInstruction :=
  fun i h => by rw [decodeOfEncodeIsTheResidue i, readBack_of_fitsWord h]

/-! ### Reading any word (R67, R76) -/

/-- Every tag's pattern is the pattern of a tag that a word can read back as. -/
theorem exists_readableTag (t : Tag) : ∃ u ∈ readableTags, opc u = opc t := by
  cases t with
  | mov => exact ⟨.ldi, by decide, rfl⟩
  | unknown => exact ⟨.nop, by decide, rfl⟩
  | _ => exact ⟨_, by decide, rfl⟩

theorem tagOfField_eq_some {f : BitVec 7} {t : Tag} (h : tagOfField f = some t) : t ∈ readableTags ∧ opc t = f :=
  ⟨List.mem_of_find?_eq_some h, by simpa using List.find?_some h⟩

theorem tagOfField_eq_none_iff (f : BitVec 7) : tagOfField f = none ↔ ∀ t, opc t ≠ f := by
  have hf : tagOfField f = none ↔ ∀ u ∈ readableTags, opc u ≠ f := by simp [tagOfField]
  refine hf.trans ⟨fun h t => ?_, fun h u _ => h u⟩
  obtain ⟨u, hu, hut⟩ := exists_readableTag t
  exact hut ▸ h u hu

/-- Everything the decoder can answer: the instruction of a readable tag with that pattern, or the rejection that names
the opcode field. -/
theorem decode_cases (w : BitVec 16) :
    (∃ t ∈ readableTags, opc t = opcodeField w ∧ decode w =
      .instr (instrOfFields t (destField w).toNat (src1Field w).toNat (thirdField w).toNat)) ∨
    (∀ t, opc t ≠ opcodeField w) ∧ decode w = .rejected (.unassignedOpcode (opcodeField w)) := by
  cases ht : tagOfField (opcodeField w) with
  | some t =>
    obtain ⟨hr, ho⟩ := tagOfField_eq_some ht
    exact .inl ⟨t, hr, ho, by simp only [decode, ht]⟩
  | none => exact .inr ⟨(tagOfField_eq_none_iff _).mp ht, by simp only [decode, ht]⟩

/-- Settles O6: the decoder answers an instruction or this rejection, by whether the opcode field is a pattern. -/
theorem decoderRejectsExactlyUnassignedFields : Obligations.DecoderRejectsExactlyUnassignedFields := by
  intro w
  rcases decode_cases w with ⟨t, -, ho, hd⟩ | ⟨hno, hd⟩
  · exact ⟨fun h => by simp [hd] at h, fun h => absurd ho (h t)⟩
  · exact ⟨fun _ => hno, fun _ => hd⟩

/-! ### The instruction read back from a word (R60, R67) -/

@[simp] theorem instrOfFields_tag (t : Tag) (d a k : Nat) : (instrOfFields t d a k).tag = t := by
  cases t <;> rfl

theorem instrOfFields_dest (t : Tag) (d a k : Nat) :
    (instrOfFields t d a k).fields.dest = if t.layout.dest then some d else none := by
  cases t <;> rfl

theorem instrOfFields_src1 (t : Tag) (d a k : Nat) :
    (instrOfFields t d a k).fields.src1 = if t.layout.src1 then some a else none := by
  cases t <;> rfl

/-- What a word reads back as, a word carries whole. -/
theorem instrOfFields_fitsWord {t : Tag} (ht : t ∈ readableTags) {d a k : Nat} (hd : d < 8) (ha : a < 8) (hk : k < 8) :
    (instrOfFields t d a k).fitsWord = true := by
  have hk' : (k : Int) < 8 := by omega
  cases t with
  | mov | unknown => simp [readableTags] at ht
  | _ => simp [instrOfFields, Instr.fitsWord, Instr.wellFormed, regIndexOk, hd, ha, hk, hk']

theorem wellFormed_of_fitsWord {i : Instr} (h : i.fitsWord = true) : i.wellFormed = true := by
  cases i <;> simp_all [Instr.fitsWord, Instr.wellFormed]

/-- An instruction read back from a word is one that a word carries whole. -/
theorem fitsWord_of_decode {w : BitVec 16} {i : Instr} (h : decode w = .instr i) : i.fitsWord = true := by
  rcases decode_cases w with ⟨t, ht, -, hd⟩ | ⟨-, hd⟩
  · cases hd.symm.trans h
    exact instrOfFields_fitsWord ht (destField w).isLt (src1Field w).isLt (thirdField w).isLt
  · cases hd.symm.trans h

/-- Settles O7: the fields of the instruction's own word are those it was read from, where its tag uses them. -/
theorem decodedInstructionsEncodeBack : Obligations.DecodedInstructionsEncodeBack := by
  intro w i h
  have hfit := fitsWord_of_decode h
  rcases decode_cases w with ⟨t, ht, ho, hd⟩ | ⟨-, hd⟩
  · cases hd.symm.trans h
    refine ⟨wellFormed_of_fitsWord hfit, ?_, fun hl => ?_, fun hl => ?_, decodeOfEncodeIsTheInstruction _ hfit⟩
    · rw [opcodeField_encode, instrOfFields_tag, ho]
    · rw [instrOfFields_tag] at hl
      rw [destField_encode, instrOfFields_dest, if_pos hl, regField, field3_toNat]
    · rw [instrOfFields_tag] at hl
      rw [src1Field_encode, instrOfFields_src1, if_pos hl, regField, field3_toNat]
  · cases hd.symm.trans h

/-- Settles O1: each word evaluates to its instruction. -/
theorem writtenOutWordsDecode : Obligations.WrittenOutWordsDecode := by
  unfold Obligations.WrittenOutWordsDecode
  decide

/-! ### The control signals of an instruction's word -/

/-- Settles O14: the signals are bits of the tag's pattern, whatever the operands. -/
theorem signalsOfEveryInstruction : Obligations.SignalsOfEveryInstruction := by
  intro i
  rw [← record_binary, signals_record]
  cases i.tag <;> simp only [opc] <;> rfl

end Sys2Proof
end

section
/-! The assembler's operands and mnemonics, and which texts `load` accepts (spec/30_encoding.md R80 to R90). -/

namespace Sys2Proof.Machine

/-! ### Operand tokens (R88) -/

/-- The tokens of a line agree at every position that tag `t` takes. -/
def SameOperands (t : Tag) (ops ops' : List (List Char)) : Prop := ∀ k < operandCount t, ops[k]? = ops'[k]?

theorem sameOperands_append {t : Tag} {ops : List (List Char)} (h : operandCount t ≤ ops.length)
    (extra : List (List Char)) : SameOperands t (ops ++ extra) ops :=
  fun _ hk => List.getElem?_append_left (Nat.lt_of_lt_of_le hk h)

/-- An instruction's operands are read from the positions that its tag takes and from no other (R80). -/
theorem instrOfOperands_congr {t : Tag} {ops ops' : List (List Char)} (h : SameOperands t ops ops') :
    instrOfOperands t ops = instrOfOperands t ops' := by
  have reg {k : Nat} (hk : k < operandCount t) : registerOperand ops k = registerOperand ops' k := by
    rw [registerOperand, h k hk, registerOperand]
  have num {k : Nat} (hk : k < operandCount t) : numericOperand ops k = numericOperand ops' k := by
    rw [numericOperand, h k hk, numericOperand]
  cases t <;> simp (disch := decide) only [instrOfOperands, reg, num]

@[simp] theorem instrOfOperands_tag (t : Tag) (ops : List (List Char)) (imm : Int → Int) :
    (instrOfOperands t ops imm).tag = t := by
  cases t <;> rfl

/-- An assembled record has the layout of its instruction's tag (R27 (i)). -/
theorem record_layout (i : Instr) : i.record.layout = i.tag.layout := by
  have h : i.record.layout = i.record.opcode.layout := eq_of_beq (record_layoutOk i)
  rw [h, Instr.record, recordWith_opcode]

/-- Settles O11: a missing token reads as an empty one, and each operand is read from one position. -/
theorem missingOperandsAreZeroExtraOnesIgnored : Obligations.MissingOperandsAreZeroExtraOnesIgnored := by
  refine ⟨fun ops k hk => ?_, fun t ops => ?_, fun t ops extra h => instrOfOperands_congr (sameOperands_append h extra)⟩
  · have hnone : ops[k]? = none := List.getElem?_eq_none hk
    constructor
    · rw [registerOperand, hnone]; rfl
    · rw [numericOperand, hnone]; rfl
  · rw [record_layout, instrOfOperands_tag]

/-! ### Mnemonics (R85) -/

theorem tagOfMnemonic_congr (names : List (List Char × Tag)) {m m' : List Char}
    (h : m.map Char.toUpper = m'.map Char.toUpper) : tagOfMnemonic names m = tagOfMnemonic names m' := by
  rw [tagOfMnemonic, h, tagOfMnemonic]

theorem instrOfTokens_of_tag {names : List (List Char × Tag)} {m : List Char} {t : Tag}
    (h : tagOfMnemonic names m = some t) (operands : List (List Char)) (imm : Int → Int) :
    instrOfTokens names (m :: operands) imm = instrOfOperands t operands imm := by
  simp only [instrOfTokens, h]

/-- Settles O10: a mnemonic is looked up in capitals, and its own text is kept only where it selects no tag. -/
theorem mnemonicsIgnoreLetterCase : Obligations.MnemonicsIgnoreLetterCase := by
  intro names m m' operands hm hsome
  obtain ⟨t, ht⟩ := Option.ne_none_iff_exists'.mp hsome
  rw [instrOfTokens_of_tag ht, instrOfTokens_of_tag (tagOfMnemonic_congr names hm ▸ ht)]

/-! ### Accepted texts (R83, R205) -/

/-- A text's program is accepted exactly when every register index in it is in `[0, 7]`. -/
theorem programOk_assemble (text : List Char) (p : Params) :
    programOk (assemble text p) p.opc = true ↔ ∀ r ∈ assemble text p, r.indicesOk = true := by
  rw [programOk, List.all_eq_true]
  refine forall₂_congr fun r hr => ?_
  obtain ⟨i, rfl⟩ := exists_instr_of_mem_assembleWith hr
  rw [recordWith_wellFormed_eq_indicesOk]

/-- Settles O58: `load` refuses the programs that are not accepted, and has no bound on their length by default. -/
theorem loadRefusesExactlyRegistersAboveSeven : Obligations.LoadRefusesExactlyRegistersAboveSeven := by
  intro s text
  have hok : programOk (assemble text) = true ↔ ∀ r ∈ assemble text, r.indicesOk = true :=
    programOk_assemble text defaultParams
  rw [load_default]
  constructor
  · constructor
    · intro h
      by_contra hall
      rw [if_pos (hok.mpr (by simpa using hall))] at h
      cases h
    · rintro ⟨r, hr, hbad⟩
      exact if_neg fun h => by simp [hok.mp h r hr] at hbad
  · exact fun hall => ⟨_, if_pos (hok.mpr hall)⟩

end Sys2Proof.Machine
end

section
/-! Where a step stops and where it goes on (spec/30_encoding.md R83, spec/40_stage_machine.md R101,
spec/60_exceptions.md R200 to R206). -/

namespace Sys2Proof.Machine

variable {xlen : Nat} {p : Params} {s : State xlen} {r : Record} {i : Instr}

/-- Settles O37: a register writer answers a next state only for a destination in `[0, 7]`. -/
theorem writesAboveRegisterSevenAreRefused : Obligations.WritesAboveRegisterSevenAreRefused :=
  fun _ _ s hi hd => by rw [exec_register hi, if_neg (Nat.not_lt.mpr hd)]

/-! ### One whole instruction and one stage step -/

theorem dest_lt_of_wellFormed {o : Tag → BitVec 7} (hw : r.wellFormed o = true) {d : Nat} (hd : r.dest = some d) :
    d < Config.nreg := by
  simp only [Record.wellFormed, Record.indicesOk, Bool.and_eq_true, hd] at hw
  obtain ⟨-, ⟨hdest, -⟩, -⟩ := hw
  exact of_decide_eq_true hdest

/-- The register step goes on, whatever the signals, for a destination that is unset or in `[0, 7]`. -/
theorem registerStep_goes (hd : ∀ d, r.dest = some d → d < Config.nreg) (s : State xlen) :
    Result.Goes (s.registerStep r) := by
  simp only [State.registerStep]
  split
  · cases h : r.dest with
    | none => exact ⟨s, rfl⟩
    | some d => exact ⟨s.setReg d s.writeData, if_pos (hd d h)⟩
  · exact ⟨s, rfl⟩

/-- WRITE_BACK of a well-formed record goes on, whatever the working registers hold. -/
theorem writeBack_goes {o : Tag → BitVec 7} (hw : r.wellFormed o = true) (s : State xlen) (p : Params) :
    Result.Goes (s.writeBack r p) := by
  obtain ⟨u, hu⟩ := registerStep_goes (fun _ => dest_lt_of_wellFormed hw) (s.storeStep r)
  exact ⟨u.pcStep r p, by simp only [State.writeBack, hu]⟩

/-- A well-formed instruction completes from every state. -/
theorem execWith_goes (hi : i.wellFormed = true) (p : Params) (s : State xlen) : Result.Goes (execWith p i s) := by
  rw [execWith_eq_run, runInstruction_eq]
  exact writeBack_goes (o := p.opc) (by rw [recordWith_wellFormed, hi]) _ _

theorem fetchStep_goes (h0 : 0 ≤ s.pc) : Result.Goes s.fetchStep := by
  by_cases h1 : s.pc < s.instructionMemory.length
  · exact ⟨_, fetchStep_inside h0 h1⟩
  · exact ⟨_, fetchStep_halted (Int.not_lt.mp h1)⟩

/-- Past FETCH, the invariant gives a well-formed active record. -/
theorem activeRecord_of_inv (hi : s.Inv p) (hs : s.currentStage ≠ .fetch) :
    ∃ r, s.activeRecord = some r ∧ r.wellFormed p.opc = true := by
  obtain ⟨hidx, h0, h1⟩ := hi.inFlight hs
  obtain ⟨r, hr⟩ := recordAt_isSome h0 h1
  exact ⟨r, by rw [State.activeRecord, hidx, hr], hi.accepted r (recordAt_mem hr)⟩

/-- From the invariant, every stage step past FETCH goes on. -/
theorem stageStep_goes_of_not_fetch (hi : s.Inv p) (hs : s.currentStage ≠ .fetch) : Result.Goes (stageStep s p) := by
  obtain ⟨r, ha, hw⟩ := activeRecord_of_inv hi hs
  cases hst : s.currentStage with
  | fetch => exact absurd hst hs
  | decode => exact ⟨_, stageStep_decode p hst ha hw⟩
  | execute => exact ⟨_, stageStep_execute p hst ha hw⟩
  | writeBack => rw [stageStep_writeBack p hst ha hw]; exact writeBack_goes hw s p

theorem stageStep_goes (hi : s.Inv p) (h0 : 0 ≤ s.pc) : Result.Goes (stageStep s p) := by
  by_cases hs : s.currentStage = .fetch
  · rw [stageStep_fetch hs]; exact fetchStep_goes h0
  · exact stageStep_goes_of_not_fetch hi hs

/-! ### The step over one instruction -/

theorem finishInstruction_goes (n : Nat) (hi : s.Inv p) : Result.Goes (finishInstruction n s p) := by
  induction n generalizing s with
  | zero => exact ⟨s, rfl⟩
  | succ n ih =>
    by_cases hs : s.currentStage = .fetch
    · exact ⟨s, by rw [finishInstruction, if_pos hs]⟩
    · obtain ⟨u, hu⟩ := stageStep_goes_of_not_fetch hi hs
      simp only [finishInstruction, if_neg hs, hu]
      exact ih (stageStep_inv hi hu)

theorem fetchAndExec_goes (hi : s.Inv p) (h0 : 0 ≤ s.pc) : Result.Goes (fetchAndExec (execWith p) s p.opc) := by
  cases hr : recordAt s.instructionMemory s.pc with
  | none => exact ⟨s, by simp only [fetchAndExec, if_neg (Int.not_lt.mpr h0), hr]⟩
  | some r =>
    have hw : r.wellFormed p.opc = true := hi.accepted r (recordAt_mem hr)
    have hrec : r.toInstr.recordWith p.opc = r := toInstr_recordWith r hw
    have hwi : r.toInstr.wellFormed = true := by rw [← recordWith_wellFormed p.opc, hrec, hw]
    rw [fetchAndExec_recordWith (execWith p) hwi (by rw [hr, hrec])]
    exact execWith_goes hwi p s

theorem stepWith_goes (hi : s.Inv p) (h0 : 0 ≤ s.pc) : Result.Goes (stepWith p s) := by
  simp only [stepWith, instructionStep]
  cases s.currentStage with
  | fetch => exact fetchAndExec_goes hi h0
  | decode => exact finishInstruction_goes 3 hi
  | execute => exact finishInstruction_goes 2 hi
  | writeBack => exact finishInstruction_goes 1 hi

/-- Settles O53: past FETCH the active record is well-formed, and in FETCH only a negative `pc` can stop. -/
theorem stepsAreTotalAboveNegativePc : Obligations.StepsAreTotalAboveNegativePc :=
  fun s hi h0 => ⟨stageStep_goes hi h0, step_eq_stepWith s ▸ stepWith_goes hi h0⟩

end Sys2Proof.Machine
end

section
/-! Words placed for the next FETCH, and runs that do not depend on the opcode table or on the tag
(spec/30_encoding.md R62, R67, R71, R74, R76). -/

namespace Sys2Proof.Machine

variable {xlen : Nat} {p : Params} {i : Instr}

/-! ### A placed word -/

theorem decode_of_decodeTableWord {nbits w : Nat} (h : decodeTableWord nbits w = some i) :
    decode (BitVec.ofNat 16 w) = .instr i := by
  simp only [decodeTableWord] at h
  split at h
  · split at h
    · cases h; assumption
    · cases h
  · cases h

/-- A row of another width, and a word whose opcode field is no pattern, stand for no instruction (R62, R76). -/
theorem decodeTableWord_eq_none {nbits w : Nat}
    (h : nbits ≠ 16 ∨ ∀ t : Tag, opc t ≠ opcodeField (BitVec.ofNat 16 w)) : decodeTableWord nbits w = none := by
  cases hd : decodeTableWord nbits w with
  | none => rfl
  | some i =>
    rcases h with hn | hno
    · simp [decodeTableWord, hn] at hd
    · have := (decoderRejectsExactlyUnassignedFields _).mpr hno
      rw [decode_of_decodeTableWord hd] at this
      cases this

/-- A placed word's record stands where the next FETCH reads. -/
theorem recordAt_withFetchWord (s : State) (nbits w : Nat) :
    recordAt (s.withFetchWord nbits w).instructionMemory (s.withFetchWord nbits w).pc = some (recordOfWord nbits w) := by
  have hp : (max s.pc 0).toNat = s.pc.toNat := by omega
  simp only [State.withFetchWord, placeFetchWord, recordAt, hp, getElem?_placeAt]
  exact if_pos (Int.le_max_right s.pc 0)

/-- Settles O47: an instruction read back from a word is well-formed, so its record at `pc` is run. -/
theorem stepRunsThePlacedWord : Obligations.StepRunsThePlacedWord := by
  refine ⟨fun s nbits w i h => ⟨?_, fun _ => rfl, fun _ => rfl, fun h0 => max_eq_left h0⟩, fun s nbits w h => ?_⟩
  · have hw : i.wellFormed = true := wellFormed_of_fitsWord (fitsWord_of_decode (decode_of_decodeTableWord h))
    have hr : recordOfWord nbits w = i.record := by simp only [recordOfWord, h]
    rw [step_fetch rfl]
    exact fetchAndExec_recordWith exec hw (by rw [recordAt_withFetchWord, hr]; rfl)
  · have hnone := decodeTableWord_eq_none h
    exact ⟨hnone, step_withFetchWord_none hnone⟩

/-! ### Another opcode table -/

/-- The control signals are all that an opcode table changes: where two states differ in them alone, each state's
signals being those of `i` under its own table, the PC steps agree in everything else (R74). -/
theorem pcStep_agrees {o : Tag → BitVec 7} (ho : OpcAdmissible o) (i : Instr) {u t : State xlen} (p : Params)
    (hu : u.controlSignals = signals (i.recordWith o).binary) (ht : t.controlSignals = signals i.record.binary)
    (hut : u = { t with controlSignals := u.controlSignals }) :
    u.pcStep (i.recordWith o) p = { t.pcStep i.record p with controlSignals := u.controlSignals } := by
  have hpc : u.nextPc (i.recordWith o) = t.nextPc i.record := by
    rw [nextPc_of ho i hu, nextPc_record i ht, hut]
    cases i <;> rfl
  rw [State.pcStep, hpc, hut]
  rfl

/-- The run of an instruction under an admissible table is that of the default table but for the control signals. -/
theorem runInstruction_agrees {o : Tag → BitVec 7} (ho : OpcAdmissible o) {s t : State} (h : exec i s = .next t) :
    runInstruction (i.recordWith o) (aluOf (i.recordWith o) s) s =
      .next { t with controlSignals := signals (i.recordWith o).binary } := by
  rcases exec_next h with ⟨d, hd, hlt, rfl⟩ | ⟨a, b, rfl, rfl⟩ | ⟨hn, hs, rfl⟩
  · rw [run_register defaultParams ho hd, if_pos hlt]
    exact congrArg _ (pcStep_agrees ho i defaultParams rfl rfl rfl)
  · rw [run_store defaultParams ho]
    exact congrArg _ (pcStep_agrees ho (.store a b) defaultParams rfl rfl rfl)
  · rw [run_pc defaultParams ho hn hs]
    exact congrArg _ (pcStep_agrees ho i defaultParams rfl rfl rfl)

/-- Settles O49: the two runs differ in the control signals alone. -/
theorem anyAdmissibleOpcodeTableRunsAlike : Obligations.AnyAdmissibleOpcodeTableRunsAlike :=
  fun _ _ _ _ ho h => ⟨_, runInstruction_agrees ho h, rfl, rfl, rfl, rfl, rfl, rfl⟩

/-! ### Another tag -/

/-- No stage but EXECUTE, whose value is given here, reads the tag of a record. -/
theorem runInstruction_opcode (r : Record) (t : Tag) (v : Word xlen) (s : State xlen) (p : Params) :
    runInstruction { r with opcode := t } v s p = runInstruction r v s p := rfl

/-- MOV's record is LDI's but for the tag, `binary` included (R71). -/
theorem record_mov (d : Nat) (k : Int) : (Instr.mov d k).record = { (Instr.ldi d k).record with opcode := .mov } := rfl

/-- Settles O45: the two records differ in the tag alone, and both tags have the immediate as ALU value. -/
theorem movIsLdiUnderAnotherTag : Obligations.MovIsLdiUnderAnotherTag := by
  refine fun d k s => ⟨congrArg Record.binary (record_mov d k), ?_⟩
  rw [exec_eq_run, exec_eq_run, record_mov, runInstruction_opcode]
  rfl

end Sys2Proof.Machine
end

section
/-! DECODE's control signals as a function of four bits of the word (spec/40_stage_machine.md R105 to R108). -/

namespace Sys2Proof.Machine

/-- Settles O13: the four bits are bits of the opcode field, and the signals read no other bit. -/
theorem signalsDependOnTheOpcodeFieldAlone : Obligations.SignalsDependOnTheOpcodeFieldAlone := by
  refine ⟨fun b => ?_, fun b b' h => ?_, fun b b' h15 h14 h13 h9 => ?_⟩
  · have bit {i : Nat} (h : i < 7) := getLsbD_opcodeField b h
    exact ⟨bit (by decide), bit (by decide), bit (by decide), bit (by decide)⟩
  · rw [signals_of_opcodeField, h, ← signals_of_opcodeField]
  · simp only [signals, h15, h14, h13, h9]

/-- Settles O12: with the three bits named, the table and its consequences are about the eight values of the bits. -/
theorem exactlyOneOfTheWritesIsEnabled : Obligations.ExactlyOneOfTheWritesIsEnabled := by
  intro b p q r hp hq hr
  simp only [signals, hp, hq, hr]
  clear hp hq hr
  refine ⟨?table, ?oneWrite, ?registerWrite, ?pcOrMemoryWrite⟩
  case table => revert p q r; decide
  case oneWrite => revert p q; decide
  case registerWrite => exact iff_of_eq (Bool.not_eq_true' q)
  case pcOrMemoryWrite => rintro rfl; simp

end Sys2Proof.Machine
end

section
/-! One stage step (spec/40_stage_machine.md R100 to R118): what FETCH, DECODE, EXECUTE and WRITE_BACK answer, and the
stage each leads to. -/

namespace Sys2Proof.Machine

variable {xlen : Nat} {p : Params} {s t u : State xlen} {r : Record}

/-! ### FETCH, DECODE and EXECUTE (R103, R105, R110) -/

/-- Settles O15: inside the program, FETCH is the update of R103. -/
theorem fetchInsideTheProgram : Obligations.FetchInsideTheProgram :=
  fun _ hs h0 h1 => (stageStep_fetch hs).trans (fetchStep_inside h0 h1)

/-- Settles O18: DECODE of a well-formed active record is the update of R105. -/
theorem decodeWritesTheSignalsOfTheWord : Obligations.DecodeWritesTheSignalsOfTheWord :=
  fun _ _ hs ha hw => stageStep_decode defaultParams hs ha hw

/-- The ALU's value for a record is that of the table in modular arithmetic (R110). -/
theorem aluOf_eq_expectedAlu (mode : AluOrMode) (r : Record) (s : State) : aluOf r s mode = expectedAlu mode r s := by
  unfold aluOf expectedAlu
  cases r.opcode with
  | add => exact aluAdd_eq _ _
  | sub => exact aluSub_eq _ _
  | addi => exact aluAddImmediate_eq _ _
  | or => cases mode <;> rfl
  | _ => rfl

/-- Settles O19: EXECUTE of a well-formed active record writes the ALU's value, which is the table's. -/
theorem executeComputesTheAluTable : Obligations.ExecuteComputesTheAluTable := by
  intro s r hs ha hw
  rw [stageStep_execute defaultParams hs ha hw, defaultParams_aluOrMode, aluOf_eq_expectedAlu]
  rfl

/-! ### WRITE_BACK's steps (R113 to R118) -/

/-- Step 1 writes the cell at the ALU result where `MW` is 1, and no other (R113). -/
theorem cell_storeStep (s : State xlen) (r : Record) (a : Nat) :
    Memory.cell (s.storeStep r).dataMemory a =
      if s.controlSignals.MW = true ∧ a = s.aluResult.toNat then some (s.rd r.src2)
      else Memory.cell s.dataMemory a := by
  unfold State.storeStep
  by_cases hMW : s.controlSignals.MW = true
  · rw [if_pos hMW, memWrite_dataMemory, cell_put]
    simp only [hMW, true_and]
  · rw [if_neg hMW, if_neg fun h => hMW h.1]

/-- Step 2 writes the register that `dest` names where `RW` is 1, and no other (R114). -/
theorem rd_registerStep (h : s.registerStep r = .next t) (n : Nat) :
    t.rd (some n) = if s.controlSignals.RW = true ∧ r.dest = some n then s.writeData else s.rd (some n) := by
  rcases registerStep_next h with ⟨hRW, d, hd, hlt, rfl⟩ | ⟨hno, rfl⟩
  · simp only [rd_setReg s hlt, hRW, hd, true_and, Option.some.injEq, eq_comm]
  · exact (if_neg fun ⟨hRW, hd⟩ => by simp [hRW, hd] at hno).symm

/-- Steps 1 and 2 change registers and data memory alone, and step 2 not the data memory. -/
theorem registerStep_storeStep_writes (h : (s.storeStep r).registerStep r = .next u) :
    u = { s with registers := u.registers, dataMemory := (s.storeStep r).dataMemory } := by
  have hstore : s.storeStep r = { s with dataMemory := (s.storeStep r).dataMemory } := by
    unfold State.storeStep
    split <;> rfl
  rcases registerStep_next h with ⟨-, d, -, -, rfl⟩ | ⟨-, rfl⟩
  · rw [State.setReg, hstore]
  · rw [(storeStep_kept s r).1]
    exact hstore

/-- The PC mux as one table (R116). -/
theorem nextPc_eq (s : State xlen) (r : Record) :
    s.nextPc r =
      if s.controlSignals.PL = true ∧ s.controlSignals.JB = true then ((s.rd r.src1).toNat : Int)
      else if s.controlSignals.PL = true ∧ s.controlSignals.JB = false ∧ s.aluResult = 0 then s.pc + valueOf r.address
      else s.pc + 1 := by
  cases hPL : s.controlSignals.PL with
  | false => simp [nextPc_sequential hPL]
  | true =>
    cases hJB : s.controlSignals.JB with
    | true => simp [nextPc_jump hPL hJB]
    | false => simp [nextPc_branch hPL hJB]

/-- Settles O20: each step by its own law, in the state that the steps before it leave. -/
theorem writeBackAppliesItsStepsInOrder : Obligations.WriteBackAppliesItsStepsInOrder := by
  intro s r hs ha hw
  obtain ⟨t, ht⟩ := writeBack_goes hw s defaultParams
  obtain ⟨_, u, rfl, hu, rfl⟩ := writeBack_next ht
  refine ⟨_, (stageStep_writeBack defaultParams hs ha hw).trans ht, fun a => ?cell, fun n => ?register, ?pc,
    writeBack_kept ht⟩
  case cell => rw [pcStep_dataMemory, registerStep_dataMemory hu, cell_storeStep]
  case register =>
    obtain ⟨hregs, -, hsig, halu, -⟩ := storeStep_kept s r
    rw [rd_pcStep, rd_registerStep hu, pcStep_dataMemory, registerStep_dataMemory hu, rd_congr hregs, State.writeData,
      hsig, halu, State.memRead]
  case pc =>
    have hkept := registerStep_storeStep_writes hu
    rw [pcStep_pc, defaultParams_pcDomain, nextPc_eq, rd_pcStep, hkept]

/-! ### The cycle of the stages (R100) -/

theorem nextStage_eq_fetch_iff (st : Stage) : nextStage st = .fetch ↔ st = .writeBack := by
  cases st <;> decide

/-- A stage step leads to the next stage, or is a halted FETCH and changes nothing. -/
theorem stageStep_currentStage (h : stageStep s p = .next t) :
    t.currentStage = nextStage s.currentStage ∨
      (s.currentStage = .fetch ∧ (s.instructionMemory.length : Int) ≤ s.pc ∧ t = s) := by
  rcases stageStep_next h with ⟨hs, -, -, rfl⟩ | hhalt | ⟨r, -, -, ⟨hs, rfl⟩ | ⟨hs, rfl⟩ | ⟨hs, hwb⟩⟩
  · exact .inl (by rw [hs]; rfl)
  · exact .inr hhalt
  · exact .inl (by rw [hs]; rfl)
  · exact .inl (by rw [hs]; rfl)
  · obtain ⟨ht, -⟩ := writeBack_kept hwb
    exact .inl (by rw [hs, ht]; rfl)

theorem isHalted_iff (s : State xlen) :
    s.isHalted = true ↔ s.currentStage = .fetch ∧ (s.instructionMemory.length : Int) ≤ s.pc := by
  simp [State.isHalted]

/-- Settles O22: the stage step's only departure from the cycle is the halted FETCH. -/
theorem stagesAreStrictlyCyclic : Obligations.StagesAreStrictlyCyclic := by
  intro s t h
  rcases stageStep_currentStage h with hnext | ⟨hs, hpc, rfl⟩
  · exact .inl hnext
  · exact .inr ⟨(isHalted_iff t).mpr ⟨hs, hpc⟩, rfl, hs⟩

end Sys2Proof.Machine
end

section
/-! Runs of stage steps (spec/40_stage_machine.md R102, R104, R120): the step over one instruction is the stage steps
left of it, a halted FETCH is final, and a straight-line program halts. -/

namespace Sys2Proof.Machine

variable {xlen : Nat} {p : Params} {s t : State xlen} {i : Instr}

/-! ### A halted FETCH (R104) -/

theorem stageStep_halted (hs : s.currentStage = .fetch) (h : (s.instructionMemory.length : Int) ≤ s.pc) :
    stageStep s p = .next s :=
  (stageStep_fetch hs).trans (fetchStep_halted h)

theorem stageStep_negativePc (hs : s.currentStage = .fetch) (h : s.pc < 0) : stageStep s p = .fault .negativePc :=
  (stageStep_fetch hs).trans (fetchStep_neg h)

/-- A state that the stage step does not change stays for any number of them. -/
theorem stageSteps_of_fixed (h : stageStep s p = .next s) (n : Nat) : stageSteps n s p = .next s := by
  induction n with
  | zero => rfl
  | succ n ih => rw [stageSteps_succ_next n h, ih]

/-! ### The step over one instruction (R120) -/

/-- The rest of an instruction in flight is its stage steps: the stage is FETCH only after the last of them. -/
theorem finishInstruction_eq_stageSteps {n : Nat} (hn : n ≤ stagesLeft s.currentStage)
    (h0 : s.currentStage = .fetch → n = 0) : finishInstruction n s p = stageSteps n s p := by
  induction n generalizing s with
  | zero => rfl
  | succ n ih =>
    have hs : s.currentStage ≠ .fetch := fun hs => Nat.succ_ne_zero n (h0 hs)
    rw [finishInstruction, if_neg hs, stageSteps]
    cases hu : stageStep s p with
    | fault f => rfl
    | refused q => rfl
    | next u =>
      have hnext : u.currentStage = nextStage s.currentStage :=
        (stageStep_currentStage hu).resolve_right fun h => hs h.1
      have hle := stagesLeft_le hu
      refine ih (by omega) fun hf => ?_
      have hwb : s.currentStage = .writeBack := (nextStage_eq_fetch_iff _).mp (hnext ▸ hf)
      rw [hwb, stagesLeft] at hn
      omega

/-- From FETCH, one whole instruction is four stage steps, whatever stands at `pc`. -/
theorem fetchAndExec_eq_stageSteps (hs : s.currentStage = .fetch) :
    fetchAndExec (execWith p) s p.opc = stageSteps 4 s p := by
  by_cases hneg : s.pc < 0
  · simp only [fetchAndExec, if_pos hneg, stageSteps, stageStep_negativePc hs hneg]
  cases hr : recordAt s.instructionMemory s.pc with
  | none =>
    have hend : (s.instructionMemory.length : Int) ≤ s.pc :=
      ((recordAt_eq_none_iff _ _).mp hr).resolve_left hneg
    rw [stageSteps_of_fixed (stageStep_halted hs hend)]
    simp only [fetchAndExec, if_neg hneg, hr]
  | some r =>
    cases hi : r.instr? p.opc with
    | some i =>
      obtain ⟨rfl, hw⟩ := instr?_eq_some_with hi
      rw [fetchAndExec_recordWith (execWith p) hw hr, stageSteps_four hs hw hr]
    | none =>
      obtain ⟨h0, h1⟩ := recordAt_bounds hr
      have hfetch : stageStep s p = .next s.fetched := (stageStep_fetch hs).trans (fetchStep_inside h0 h1)
      have hdecode : stageStep s.fetched p = .refused .illFormedRecord :=
        onActive_ill (show s.fetched.activeRecord = some r from hr) (instr?_eq_none hi) _
      rw [stageSteps_succ_next 3 hfetch]
      simp only [fetchAndExec, if_neg hneg, hr, hi, stageSteps, hdecode]

/-- The step over one instruction is the stage steps left of it, at every choice of the parameters. -/
theorem stepWith_eq_stageSteps (p : Params) (s : State xlen) :
    stepWith p s = stageSteps (stagesLeft s.currentStage) s p := by
  unfold stepWith instructionStep
  cases hs : s.currentStage with
  | fetch => exact fetchAndExec_eq_stageSteps hs
  | decode | execute | writeBack => exact finishInstruction_eq_stageSteps (by rw [hs]; exact le_rfl) (by simp [hs])

/-- Settles O48: the step is the step over one instruction at the defaults. -/
theorem stepIsTheStageStepsLeft : Obligations.StepIsTheStageStepsLeft :=
  fun s => (step_eq_stepWith s).trans (stepWith_eq_stageSteps defaultParams s)

/-- Settles O46: from FETCH the step is the meaning of the record's instruction. -/
theorem stepRunsTheInstructionAtPc : Obligations.StepRunsTheInstructionAtPc :=
  fun _ _ hs hi hr => (step_fetch hs).trans (fetchAndExec_recordWith exec hi hr)

/-- Settles O16: a halted FETCH is a fixed point of the stage step, and a step over one instruction is stage steps. -/
theorem haltedFetchIsAFixedPoint : Obligations.HaltedFetchIsAFixedPoint := by
  refine ⟨fun s hs h => ?_, fun s hs h0 hnil => ?_, fun s hs h => stageStep_negativePc hs h⟩
  · have hfix : stageStep s = .next s := stageStep_halted hs h
    exact ⟨hfix, (isHalted_iff s).mpr ⟨hs, h⟩, stageSteps_of_fixed hfix,
      (stepIsTheStageStepsLeft s).trans (stageSteps_of_fixed hfix _)⟩
  · exact stageStep_halted hs (by simp [h0, hnil])

/-! ### Straight-line programs (R102, R230) -/

theorem execWith_currentStage (h : execWith p i s = .next t) : t.currentStage = .fetch := by
  rw [execWith_eq_run, runInstruction_eq] at h
  obtain ⟨ht, -⟩ := writeBack_kept h
  exact ht

/-- An instruction that transfers no control goes on to `pc + 1` (44_control_transfer.md R164). -/
theorem execWith_pc_of_not_transfer (ho : OpcAdmissible p.opc) (ht : isTransfer i = false)
    (h : execWith p i s = .next t) : t.pc = p.pcDomain (s.pc + 1) := by
  rw [execWith_eq_run, runInstruction_eq] at h
  obtain ⟨_, u, rfl, hu, rfl⟩ := writeBack_next h
  have hkept := registerStep_storeStep_writes hu
  have hsig : u.controlSignals = signals (i.recordWith p.opc).binary := by rw [hkept]; rfl
  have hpc : u.pc = s.pc := by rw [hkept]; rfl
  rw [pcStep_pc, nextPc_of ho i hsig, muxPc_of_not_transfer ht, hpc]

/-- No record of the program from index `k` on is a BRZ or a JMP. -/
def StraightLineFrom (im : List Record) (k : Int) : Prop :=
  ∀ j : Int, k ≤ j → j < im.length → ∃ i : Instr, recordAt im j = some i.record ∧ isTransfer i = false

theorem StraightLineFrom.succ {im : List Record} {k : Int} (h : StraightLineFrom im k) : StraightLineFrom im (k + 1) :=
  fun j hj => h j (by omega)

/-- Four stage steps from FETCH at an instruction that transfers no control reach FETCH at the next index. -/
theorem stageSteps_four_of_not_transfer {s : State} (hi : s.Inv) (hs : s.currentStage = .fetch)
    (hr : recordAt s.instructionMemory s.pc = some i.record) (ht : isTransfer i = false) :
    ∃ u, stageSteps 4 s = .next u ∧ u.currentStage = .fetch ∧ u.pc = s.pc + 1 := by
  have hw : i.wellFormed = true := by rw [← record_wellFormed]; exact hi.accepted _ (recordAt_mem hr)
  obtain ⟨u, hu⟩ := execWith_goes hw defaultParams s
  have hrun : stageSteps 4 s = execWith defaultParams i s := stageSteps_four (p := defaultParams) hs hw hr
  have hpc := execWith_pc_of_not_transfer (p := defaultParams) opc_admissible ht hu
  exact ⟨u, hrun.trans hu, execWith_currentStage hu, hpc⟩

/-- A straight-line program reaches its end after four stage steps for each of the `n` instructions left. -/
theorem stageSteps_straightLine (n : Nat) {s : State} (hi : s.Inv) (hs : s.currentStage = .fetch)
    (hn : s.pc + n = s.instructionMemory.length) (hline : StraightLineFrom s.instructionMemory s.pc) :
    ∃ t, stageSteps (4 * n) s = .next t ∧ t.currentStage = .fetch ∧ t.pc = s.instructionMemory.length ∧
      t.instructionMemory = s.instructionMemory := by
  induction n generalizing s with
  | zero => exact ⟨s, rfl, hs, by omega, rfl⟩
  | succ n ih =>
    obtain ⟨i, hr, ht⟩ := hline s.pc le_rfl (by omega)
    obtain ⟨u, hu, hus, hupc⟩ := stageSteps_four_of_not_transfer hi hs hr ht
    have him : u.instructionMemory = s.instructionMemory := stageSteps_instructionMemory hu
    have huline : StraightLineFrom u.instructionMemory u.pc := by rw [him, hupc]; exact hline.succ
    obtain ⟨t, hrun, hts, htpc, htim⟩ := ih (stageSteps_inv 4 hi hu) hus (by rw [him]; omega) huline
    refine ⟨t, ?_, hts, by rw [htpc, him], htim.trans him⟩
    rw [show 4 * (n + 1) = 4 + 4 * n by omega, stageSteps_add_next (4 * n) hu, hrun]

/-- Settles O54: the run reaches FETCH at the end of the program, where one more step changes nothing. -/
theorem straightLineProgramsHaltAfterFourStepsEach : Obligations.StraightLineProgramsHaltAfterFourStepsEach := by
  intro n s hi hs _ hn hline
  obtain ⟨t, hrun, hts, htpc, htim⟩ := stageSteps_straightLine n hi hs hn hline
  have hend : (t.instructionMemory.length : Int) ≤ t.pc := by rw [htim, htpc]
  refine ⟨t, hrun, hts, htpc, (isHalted_iff t).mpr ⟨hts, hend⟩, ?_⟩
  rw [stageSteps_add_next 1 hrun]
  exact stageSteps_of_fixed (stageStep_halted hts hend) 1

end Sys2Proof.Machine
end

section
/-! How ADD, SUB, AND and OR complete (spec/41_alu_register.md): the destination holds the ALU's value, `pc` has
advanced by 1, and the control state is that of one whole instruction. -/

namespace Sys2Proof.Machine

/-- Every instruction that answers a next state leaves the control state of R120, whatever else it writes. -/
theorem exec_controlState {i : Instr} {s t : State} (h : exec i s = .next t) :
    ControlStateAfter i (aluOf i.record s) s t := by
  have hsignals : signals i.record.binary = expectedSignals i.tag := by
    rw [record_binary, signalsOfEveryInstruction]
  rcases exec_next h with ⟨d, -, -, rfl⟩ | ⟨a, b, rfl, rfl⟩ | ⟨-, -, rfl⟩ <;>
    exact ⟨rfl, rfl, hsignals, rfl, rfl⟩

/-- A register writer other than LOAD, with a destination in `[0, 7]`, completes with the ALU's value. -/
theorem exec_register_completes {i : Instr} {d : Nat} (hd : d < Config.nreg) (hi : writtenRegister i = some d)
    (hl : i.tag ≠ .load) (s : State) :
    ∃ t, exec i s = .next t ∧ t.rd (some d) = aluOf i.record s ∧ t.pc = s.pc + 1 ∧
      ControlStateAfter i (t.rd (some d)) s t := by
  obtain ⟨t, ht, hpc, hr⟩ := execWith_register (p := defaultParams) opc_admissible hd hi s
  rw [← exec_eq_execWith] at ht
  replace hr : t.rd (some d) = aluOf i.record s := hr.trans (if_neg hl)
  exact ⟨t, ht, hr, hpc, hr ▸ exec_controlState ht⟩

/-- Settles O26: the ALU's value for ADD is the sum wrapped to 16 bits. -/
theorem addCompletesWithTheSum : Obligations.AddCompletesWithTheSum := by
  intro s d a b hd
  obtain ⟨t, ht, hr, hpc, hc⟩ := exec_register_completes (i := .add d a b) hd rfl nofun s
  replace hr : t.rd (some d) = aluAdd (s.rd (some a)) (s.rd (some b)) := hr
  refine ⟨t, ht, ?_, hpc, hc⟩
  rw [hr]
  exact_mod_cast toNat_aluAdd _ _

/-- Settles O27: the ALU's value for SUB is the exact difference wrapped to 16 bits. -/
theorem subCompletesWithTheDifference : Obligations.SubCompletesWithTheDifference := by
  intro s d a b hd
  obtain ⟨t, ht, hr, hpc, hc⟩ := exec_register_completes (i := .sub d a b) hd rfl nofun s
  replace hr : t.rd (some d) = aluSub (s.rd (some a)) (s.rd (some b)) := hr
  exact ⟨t, ht, hr ▸ toNat_aluSub _ _, hpc, hc⟩

/-- Settles O28: the ALU's value for AND is the bitwise and of the sources. -/
theorem andCompletesBitwise : Obligations.AndCompletesBitwise := by
  intro s d a b hd
  obtain ⟨t, ht, hr, hpc, hc⟩ := exec_register_completes (i := .and d a b) hd rfl nofun s
  replace hr : t.rd (some d) = s.rd (some a) &&& s.rd (some b) := hr
  exact ⟨t, ht, fun k => by rw [hr, BitVec.getLsbD_and], hpc, hc⟩

/-- Settles O29: the ALU's value for OR is that of the machine's mode. -/
theorem orCompletesInItsMode : Obligations.OrCompletesInItsMode := by
  refine ⟨fun s d a b hd => ?completes, fun x y => ⟨rfl, fun k => ?bitwise⟩⟩
  case completes => exact exec_register_completes (i := .or d a b) hd rfl nofun s
  case bitwise => exact BitVec.getLsbD_or

end Sys2Proof.Machine
end

section
/-! How ADDI, LDI and MOV complete (spec/42_immediate.md): the ALU wraps an exact integer of the full typed immediate,
which no 3-bit field of the encoded word cuts down. -/

namespace Sys2Proof.Machine

/-- Where the ALU wraps an exact integer `v`, a register writer other than LOAD completes with `v` modulo `2^16`. -/
theorem exec_register_completes_wrap {i : Instr} {d : Nat} (hd : d < Config.nreg) (hi : writtenRegister i = some d)
    (hl : i.tag ≠ .load) (s : State) {v : Int} (hv : aluOf i.record s = wrap v) :
    ∃ t, exec i s = .next t ∧ ((t.rd (some d)).toNat : Int) = v % 65536 ∧ t.pc = s.pc + 1 ∧
      ControlStateAfter i (t.rd (some d)) s t := by
  obtain ⟨t, ht, hr, hpc, hc⟩ := exec_register_completes hd hi hl s
  exact ⟨t, ht, by rw [hr, hv, toNat_wrap], hpc, hc⟩

/-- Settles O30: the ALU's value for ADDI is the exact sum of the source and the whole immediate, wrapped. -/
theorem addiCompletesWithTheFullImmediate : Obligations.AddiCompletesWithTheFullImmediate := by
  intro s d a k hd
  have halu : aluOf (Instr.addi d a k).record s = wrap ((s.rd (some a)).toNat + k) := rfl
  exact exec_register_completes_wrap (i := .addi d a k) hd rfl nofun s halu

/-- Settles O31: the ALU's value for LDI and for MOV is the whole immediate, wrapped. -/
theorem ldiAndMovCompleteWithTheFullImmediate : Obligations.LdiAndMovCompleteWithTheFullImmediate := by
  intro s d k hd
  have haluLdi : aluOf (Instr.ldi d k).record s = wrap k := rfl
  have haluMov : aluOf (Instr.mov d k).record s = wrap k := rfl
  exact ⟨exec_register_completes_wrap (i := .ldi d k) hd rfl nofun s haluLdi,
    exec_register_completes_wrap (i := .mov d k) hd rfl nofun s haluMov⟩

end Sys2Proof.Machine
end

section
/-! How LOAD and STORE complete (spec/43_load_store.md): the ALU passes the address register's whole value, LOAD leaves
that cell in its destination, and STORE writes that cell and nothing else. -/

namespace Sys2Proof.Machine

/-- Settles O32: the register writer LOAD leaves the cell at the ALU's value, which is the effective address. -/
theorem loadCompletesWithTheCell : Obligations.LoadCompletesWithTheCell := by
  intro s d a hd
  obtain ⟨t, ht, hpc, hr⟩ := execWith_register (p := defaultParams) opc_admissible hd (i := .load d a) rfl s
  rw [← exec_eq_execWith] at ht
  replace hr : t.rd (some d) = s.memRead (effectiveAddress s a) := hr
  exact ⟨t, ht, hr, hpc, exec_controlState ht⟩

/-- Settles O33: STORE writes its cell under every admissible opcode table, so under the default one. -/
theorem storeCompletesWithTheWrite : Obligations.StoreCompletesWithTheWrite := by
  intro s a b
  obtain ⟨t, ht, hpc, hcell⟩ := execWith_store (p := defaultParams) opc_admissible a b s
  rw [← exec_eq_execWith] at ht
  exact ⟨t, ht, hcell, hpc, exec_controlState ht⟩

/-- Settles O40: STORE has no destination, and the one cell it writes is that at its effective address. -/
theorem storeFrame : Obligations.StoreFrame := by
  intro a b s t h
  refine ⟨fun n => exec_rd_kept h nofun, exec_instructionMemory h, fun x hx => exec_cell_kept h ?_⟩
  rintro _ _ ⟨⟩
  exact hx

/-- Settles O44: the LOAD reads the cell the STORE left, which holds the stored value. -/
theorem storeThenLoadReturnsTheValue : Obligations.StoreThenLoadReturnsTheValue := by
  intro s t u a b a' d hd ht hcell haddr
  obtain ⟨t', ht', hstored, -⟩ := storeCompletesWithTheWrite s a b
  obtain rfl : t = t' := Host.Outcome.next.inj (ht.symm.trans ht')
  obtain ⟨w, hw, hr, -⟩ := loadCompletesWithTheCell u d a' hd
  refine ⟨w, hw, ?_⟩
  rw [hr, haddr, hcell, hstored, Option.getD_some]

end Sys2Proof.Machine
end

section
/-! How BRZ and JMP complete, and where every instruction goes on (spec/44_control_transfer.md): the next `pc` is the PC
mux's, and an instruction with neither a destination nor a memory write leaves every register and data cell as it was. -/

namespace Sys2Proof.Machine

variable {i : Instr} {s t : State}

/-! ### The next `pc` (R164) -/

/-- Every instruction that answers a next state leaves the PC mux's choice in `pc`: a register write and a memory write
come before it, but only instructions that transfer no control make one. -/
theorem exec_nextPc (h : exec i s = .next t) :
    t.pc = muxPc i (beforeWriteBack i.record (aluOf i.record s) s) := by
  rcases exec_next h with ⟨d, hd, -, rfl⟩ | ⟨a, b, rfl, rfl⟩ | ⟨-, -, rfl⟩ <;>
    rw [pcStep_pc, defaultParams_pcDomain, nextPc_record _ rfl]
  · have ht : isTransfer i = false := isTransfer_of_writtenRegister hd
    rw [muxPc_of_not_transfer ht, muxPc_of_not_transfer ht]
    rfl
  · rfl

/-- Settles O42: before WRITE_BACK the registers and `pc` are those of the start, and BRZ's ALU value is the tested
register. -/
theorem nextPcOfEveryTag : Obligations.NextPcOfEveryTag := by
  intro i s t h
  have hpc := exec_nextPc h
  cases i with
  | _ => exact hpc

/-- Settles O34: BRZ answers a next state from every state, with the `pc` of R164 and the tested register as ALU value. -/
theorem brzCompletesTakenExactlyOnZero : Obligations.BrzCompletesTakenExactlyOnZero := by
  intro s a k
  have ht := exec_pc (i := .brz a k) rfl nofun s
  have hpc := nextPcOfEveryTag (.brz a k) s _ ht
  exact ⟨_, ht, fun hz => hpc.trans (if_pos hz), fun hz => hpc.trans (if_neg hz), exec_controlState ht⟩

/-- Settles O35: JMP answers a next state from every state, with the `pc` of R164 and 0 as ALU value. -/
theorem jmpCompletesAtTheRegister : Obligations.JmpCompletesAtTheRegister := by
  intro s a
  have ht := exec_pc (i := .jmp a) rfl nofun s
  exact ⟨_, ht, nextPcOfEveryTag (.jmp a) s _ ht, exec_controlState ht⟩

/-- Settles O41: with no destination no register is written, and only a STORE writes a cell. -/
theorem transferAndNopFrame : Obligations.TransferAndNopFrame := by
  intro i s t hi hstore h
  refine ⟨fun n => exec_rd_kept h ?_, fun x => exec_cell_kept h ?_, exec_instructionMemory h⟩
  · rw [hi]
    exact nofun
  · exact fun a b hab => absurd hab (hstore a b)

/-! ### The endless loop (R229) -/

/-- `t` stands in FETCH at the instruction `s` stands at, with the program, registers and data memory of `s`. -/
def StandsAs (s t : State) : Prop :=
  t.currentStage = .fetch ∧ t.pc = s.pc ∧ t.instructionMemory = s.instructionMemory ∧ SameRegisters s t ∧ SameMemory s t

/-- One round of the loop: the four stage steps of a taken BRZ to itself. -/
theorem stageSteps_four_brz_self {a : Nat} (hs : s.currentStage = .fetch) (hw : (Instr.brz a 0).wellFormed = true)
    (hr : recordAt s.instructionMemory s.pc = some (Instr.brz a 0).record) (hz : s.rd (some a) = 0) :
    ∃ t, stageSteps 4 s = .next t ∧ StandsAs s t := by
  obtain ⟨t, ht, htaken, -, hstage, -⟩ := brzCompletesTakenExactlyOnZero s a 0
  obtain ⟨hregs, hmem, him⟩ := transferAndNopFrame (.brz a 0) s t rfl nofun ht
  have hrun : stageSteps 4 s = exec (.brz a 0) s := stageSteps_four (p := defaultParams) hs hw hr
  exact ⟨t, hrun.trans ht, hstage, (htaken hz).trans (Int.add_zero _), him, hregs, hmem⟩

/-- Any number of rounds of the loop. -/
theorem stageSteps_brz_self (n : Nat) {a : Nat} (hs : s.currentStage = .fetch) (hw : (Instr.brz a 0).wellFormed = true)
    (hr : recordAt s.instructionMemory s.pc = some (Instr.brz a 0).record) (hz : s.rd (some a) = 0) :
    ∃ t, stageSteps (4 * n) s = .next t ∧ StandsAs s t := by
  induction n with
  | zero => exact ⟨s, rfl, hs, rfl, rfl, fun _ => rfl, fun _ => rfl⟩
  | succ n ih =>
    obtain ⟨u, hu, hus, hupc, huim, huregs, humem⟩ := ih
    have hur : recordAt u.instructionMemory u.pc = some (Instr.brz a 0).record := by rw [huim, hupc, hr]
    have huz : u.rd (some a) = 0 := (huregs a).trans hz
    obtain ⟨t, ht, hts, htpc, htim, htregs, htmem⟩ := stageSteps_four_brz_self hus hw hur huz
    exact ⟨t, (stageSteps_add_next 4 hu).trans ht, hts, htpc.trans hupc, htim.trans huim,
      fun x => (htregs x).trans (huregs x), fun x => (htmem x).trans (humem x)⟩

/-- Settles O55: after any number of rounds `pc` still names the BRZ's record, so the FETCH there does not halt. -/
theorem takenBrzToItselfNeverHalts : Obligations.TakenBrzToItselfNeverHalts := by
  intro n a s hs hw hr hz
  obtain ⟨t, ht, hts, htpc, htim, htregs, htmem⟩ := stageSteps_brz_self n hs hw hr hz
  have hinside := (recordAt_bounds hr).2
  have hnot : t.isHalted = false := by
    rw [Bool.eq_false_iff, ne_eq, isHalted_iff, htim, htpc]
    exact fun ⟨_, hend⟩ => Int.not_lt.mpr hend hinside
  exact ⟨t, ht, hts, htpc, htregs, htmem, hnot⟩

end Sys2Proof.Machine
end

section
/-! How NOP and an unrecognised mnemonic complete (spec/45_nop_unrecognized.md): their records differ in the tag alone, so
they run alike, and neither names a register or a cell to write. -/

namespace Sys2Proof.Machine

/-- The record of an unrecognised mnemonic is NOP's but for the tag, `binary` included (R72, R171). -/
theorem record_unknown (text : List Char) :
    (Instr.unknown text).record = { Instr.nop.record with opcode := .unknown text } := rfl

/-- An unrecognised mnemonic executes exactly as NOP, whatever its text: both tags have 0 as ALU value, and no other
stage reads the tag (R171). -/
theorem exec_unknown_eq_exec_nop (text : List Char) (s : State) : exec (.unknown text) s = exec .nop s := by
  have hvalue : aluOf (Instr.unknown text).record s = aluOf Instr.nop.record s := rfl
  rw [exec_eq_run, exec_eq_run, hvalue, record_unknown, runInstruction_opcode]

/-- Settles O36: NOP answers a next state from every state, with the frame of R41, the `pc` of R164 and 0 as ALU value;
an unrecognised mnemonic answers the same one. -/
theorem nopAndUnknownCompleteWithoutEffect : Obligations.NopAndUnknownCompleteWithoutEffect := by
  intro s text
  have ht := exec_pc (i := .nop) rfl nofun s
  obtain ⟨hregs, hmem, -⟩ := transferAndNopFrame .nop s _ rfl nofun ht
  have hpc := nextPcOfEveryTag .nop s _ ht
  exact ⟨_, ht, (exec_unknown_eq_exec_nop text s).trans ht, hregs, hmem, hpc, exec_controlState ht⟩

end Sys2Proof.Machine
end

section
/-! The driver operations (spec/46_driver_interface.md): what `reset()` and an accepted `load` leave (R181, R182), which
states are halted (R187), and what runs and pauses reach (R185, R186). -/

namespace Sys2Proof.Machine

variable {xlen : Nat} {p : Params} {s t : State xlen}

/-! ### `reset()` (R182) -/

/-- After a reset every register reads 0, and so does an index that names none. -/
@[simp] theorem rd_resetCpu (s : State xlen) (n : Nat) : s.resetCpu.rd (some n) = 0 := by
  by_cases hn : n < Config.nreg
  · rw [rd_of_lt _ hn]
    exact Vector.getElem_replicate hn
  · exact rd_of_ge _ hn

/-- Settles O56: each component of the reset state is the one `resetCpu` writes, whatever the state before. -/
theorem resetIgnoresThePriorState : Obligations.ResetIgnoresThePriorState :=
  fun s => ⟨rd_resetCpu s, resetCpu_pc s, resetCpu_dataMemory s, resetCpu_currentStage s, resetCpu_instructionMemory s⟩

/-- A reset of a state whose program is accepted establishes the invariant. -/
theorem resetCpu_inv (ha : s.Accepted p.opc) : s.resetCpu.Inv p :=
  inv_of_fetch (resetCpu_currentStage s) rfl ha

/-! ### `load` (R181) -/

/-- A load that goes on has accepted the text's program, put it in the instruction memory and reset. -/
theorem load_next {text : List Char} (h : s.load text p = .next t) :
    programOk (assemble text p) p.opc = true ∧ t = { s with instructionMemory := assemble text p }.resetCpu := by
  rw [load_eq] at h
  split at h
  · rename_i hok
    split at h
    · exact ⟨hok, (Host.Outcome.next.inj h).symm⟩
    · cases h
  · cases h

/-- Settles O57: the loaded state is a reset of one that holds the accepted program. -/
theorem loadReplacesTheProgramAndResets : Obligations.LoadReplacesTheProgramAndResets := by
  intro s t text h
  obtain ⟨hok, rfl⟩ := load_next h
  exact ⟨resetCpu_inv (accepted_of_programOk hok), rfl, rfl, rfl, rfl, rd_resetCpu _⟩

/-! ### The halted states (R187) -/

theorem nextStage_ne (st : Stage) : nextStage st ≠ st := by
  cases st <;> decide

/-- The halted states are the fixed points of the stage step: every other step that goes on moves to the next stage. -/
theorem isHalted_iff_stageStep_fixed (p : Params) (s : State xlen) : s.isHalted = true ↔ stageStep s p = .next s := by
  rw [isHalted_iff]
  constructor
  · exact fun ⟨hs, hpc⟩ => stageStep_halted hs hpc
  · intro h
    rcases stageStep_currentStage h with hnext | ⟨hs, hpc, -⟩
    · exact absurd hnext.symm (nextStage_ne _)
    · exact ⟨hs, hpc⟩

/-- Settles O23: a load of the empty text leaves FETCH with `pc` 0 at the end of an empty program. -/
theorem haltedExactlyWhenTheStepChangesNothing : Obligations.HaltedExactlyWhenTheStepChangesNothing := by
  refine ⟨isHalted_iff, isHalted_iff_stageStep_fixed defaultParams, fun s t h => ?_⟩
  obtain ⟨-, rfl⟩ := load_next h
  have hempty : assemble [] = [] := rfl
  exact (isHalted_iff _).mpr ⟨rfl, by simp [hempty]⟩

/-! ### `run` and `pause()` (R185, R186) -/

/-- A run and the same number of stage steps part only where the run has stopped at a halted state, and there the stage
steps change nothing. -/
theorem run_eq_stageSteps (p : Params) (n : Nat) (s : State xlen) : State.run n s p = stageSteps n s p := by
  induction n generalizing s with
  | zero => rfl
  | succ n ih =>
    by_cases hh : s.isHalted = true
    · rw [State.run, if_pos hh, stageSteps_of_fixed ((isHalted_iff_stageStep_fixed p s).mp hh)]
    · rw [State.run, if_neg hh, stageSteps]
      cases stageStep s p with
      | next u => exact ih u
      | fault f => rfl
      | refused q => rfl

/-- Settles O24: runs are stage steps at every choice of the parameters, so at the defaults. -/
theorem runReachesWhatTheStepsReach : Obligations.RunReachesWhatTheStepsReach :=
  run_eq_stageSteps defaultParams

theorem pause_eq (s : State xlen) : s.pause = s := rfl

/-- Settles O25: a pause changes nothing, and `m + n` stage steps are `m` and then `n`. -/
theorem pausedRunsContinueFromTheSameState : Obligations.PausedRunsContinueFromTheSameState := by
  intro m n s t h
  rw [pause_eq, stageSteps_add_next n h]

end Sys2Proof.Machine
end

section
/-! The stops (spec/60_exceptions.md R205, R206): a stage past FETCH refuses what is no well-formed record, a FETCH
below 0 faults, and only a taken BRZ leads below 0. -/

namespace Sys2Proof.Machine

variable {xlen : Nat} {p : Params} {s t : State xlen} {r : Record} {i : Instr}

/-! ### The step stops where its first stage step stops -/

theorem stagesLeft_eq_succ (st : Stage) : ∃ n, stagesLeft st = n + 1 := by
  cases st <;> exact ⟨_, rfl⟩

theorem stepWith_of_stageStep_fault {f : Fault} (h : stageStep s p = .fault f) : stepWith p s = .fault f := by
  obtain ⟨n, hn⟩ := stagesLeft_eq_succ s.currentStage
  simp only [stepWith_eq_stageSteps, hn, stageSteps, h]

theorem stepWith_of_stageStep_refused {q : Refusal} (h : stageStep s p = .refused q) : stepWith p s = .refused q := by
  obtain ⟨n, hn⟩ := stagesLeft_eq_succ s.currentStage
  simp only [stepWith_eq_stageSteps, hn, stageSteps, h]

/-! ### Records that are refused (R205, R121) -/

theorem onActive_none {o : Tag → BitVec 7} (ha : s.activeRecord = none) (act : Record → Result xlen) :
    s.onActive act o = .refused .noActiveRecord := by
  simp only [State.onActive, ha]

/-- Every stage past FETCH acts on the active record alone, whatever its action is. -/
theorem stageStep_eq_onActive (hs : s.currentStage ≠ .fetch) :
    ∃ act : Record → Result xlen, stageStep s p = s.onActive act p.opc := by
  unfold stageStep
  cases hst : s.currentStage with
  | fetch => exact absurd hst hs
  | decode | execute | writeBack => exact ⟨_, rfl⟩

theorem stageStep_illFormedRecord (hs : s.currentStage ≠ .fetch) (ha : s.activeRecord = some r)
    (hw : r.wellFormed p.opc = false) : stageStep s p = .refused .illFormedRecord := by
  obtain ⟨act, hact⟩ := stageStep_eq_onActive hs
  rw [hact, onActive_ill ha hw]

theorem stageStep_noActiveRecord (hs : s.currentStage ≠ .fetch) (ha : s.activeRecord = none) :
    stageStep s p = .refused .noActiveRecord := by
  obtain ⟨act, hact⟩ := stageStep_eq_onActive hs
  rw [hact, onActive_none ha]

/-- A FETCH at an ill-formed record reads no record and goes on; the DECODE it leads to refuses the record. -/
theorem stageStep_fetch_illFormedRecord (hs : s.currentStage = .fetch)
    (hr : recordAt s.instructionMemory s.pc = some r) (hw : r.wellFormed p.opc = false) :
    stageStep s p = .next s.fetched ∧ stageStep s.fetched p = .refused .illFormedRecord := by
  obtain ⟨h0, h1⟩ := recordAt_bounds hr
  have ha : s.fetched.activeRecord = some r := hr
  exact ⟨(stageStep_fetch hs).trans (fetchStep_inside h0 h1), stageStep_illFormedRecord nofun ha hw⟩

/-- Settles O38: the step is stage steps, and the first to read a record refuses. -/
theorem illFormedActiveRecordsAreRefused : Obligations.IllFormedActiveRecordsAreRefused := by
  refine ⟨fun s r hs ha hw => ?active, fun s r hs hr hw => ?fetch, fun s hs ha => ?none⟩
  case active =>
    have hstop : stageStep s = .refused .illFormedRecord := stageStep_illFormedRecord hs ha hw
    exact ⟨hstop, (step_eq_stepWith s).trans (stepWith_of_stageStep_refused hstop)⟩
  case fetch =>
    obtain ⟨hfetch, hdecode⟩ := stageStep_fetch_illFormedRecord (p := defaultParams) hs hr hw
    refine ⟨?_, s.fetched, hfetch, hdecode⟩
    rw [stepIsTheStageStepsLeft, hs, stagesLeft, stageSteps_succ_next 3 hfetch]
    simp only [stageSteps, hdecode]
  case none =>
    have hstop : stageStep s = .refused .noActiveRecord := stageStep_noActiveRecord hs ha
    exact ⟨hstop, (step_eq_stepWith s).trans (stepWith_of_stageStep_refused hstop)⟩

/-! ### Where a negative `pc` comes from (R206, R161) -/

/-- From a `pc` that is not negative, the PC mux goes below 0 only by the offset of a taken BRZ: a jump target is a
register's unsigned value. -/
theorem muxPc_neg (h0 : 0 ≤ s.pc) (hneg : muxPc i s < 0) :
    ∃ a k, i = .brz a k ∧ s.aluResult = 0 ∧ muxPc i s = s.pc + k := by
  cases i with
  | brz a k =>
    by_cases hz : s.aluResult = 0
    · exact ⟨a, k, rfl, hz, if_pos hz⟩
    · rw [muxPc, if_neg hz] at hneg
      omega
  | jmp a => exact absurd hneg (Int.not_lt.mpr (Int.natCast_nonneg _))
  | _ =>
    rw [muxPc_of_not_transfer rfl] at hneg
    omega

/-- WRITE_BACK of an instruction under its own signals makes `pc` negative only where the PC mux does: the register and
memory writes before it leave `pc` and the ALU result as they were. -/
theorem writeBack_pc_neg {s t : State} (h0 : 0 ≤ s.pc) (hc : s.controlSignals = signals i.record.binary)
    (h : s.writeBack i.record = .next t) (hneg : t.pc < 0) :
    ∃ a k, i = .brz a k ∧ s.aluResult = 0 ∧ t.pc = s.pc + k := by
  obtain ⟨_, u, rfl, hwrites, rfl⟩ := writeBack_next h
  have hu := registerStep_storeStep_writes hwrites
  have hpc : u.pc = s.pc := by rw [hu]
  have halu : u.aluResult = s.aluResult := by rw [hu]
  have hmux : (u.pcStep i.record).pc = muxPc i u := nextPc_record i (by rw [hu]; exact hc)
  rw [hmux] at hneg ⊢
  rw [← hpc, ← halu]
  exact muxPc_neg (hpc ▸ h0) hneg

/-- From the invariant, a stage step that goes on starts at a `pc` that is not negative. -/
theorem pc_nonneg_of_stageStep_next (hi : s.Inv p) (h : stageStep s p = .next t) : 0 ≤ s.pc := by
  by_cases hs : s.currentStage = .fetch
  · by_contra hneg
    rw [stageStep_negativePc hs (Int.not_le.mp hneg)] at h
    cases h
  · obtain ⟨-, h0, -⟩ := hi.inFlight hs
    exact h0

/-- Settles O17: only WRITE_BACK writes `pc`, and the invariant gives it the signals and the ALU value of its record. -/
theorem negativePcComesOnlyFromBrzAndFaults : Obligations.NegativePcComesOnlyFromBrzAndFaults := by
  refine ⟨fun s hs hneg => ?fault, fun s t hi h hneg => ?brz⟩
  case fault =>
    have hstop : stageStep s = .fault .negativePc := stageStep_negativePc hs hneg
    refine ⟨hstop, (step_eq_stepWith s).trans (stepWith_of_stageStep_fault hstop), ?_⟩
    rw [Bool.eq_false_iff, Ne, isHalted_iff]
    omega
  case brz =>
    have h0 := pc_nonneg_of_stageStep_next hi h
    have hs : s.currentStage = .writeBack := by
      by_contra hne
      obtain ⟨-, -, hpc⟩ := stageStep_kept hne h
      omega
    have hne : s.currentStage ≠ .fetch := by simp [hs]
    obtain ⟨r, ha, hw⟩ := activeRecord_of_inv hi hne
    obtain ⟨hsig, halu⟩ := hi.working hne r ha
    rw [stageStep_writeBack defaultParams hs ha hw] at h
    rw [← toInstr_record r hw] at ha h hsig halu
    obtain ⟨a, k, hbrz, hz, hpc⟩ := writeBack_pc_neg h0 (hsig (.inr hs)) h hneg
    rw [hbrz] at ha halu
    exact ⟨hs, h0, a, k, ha, (halu hs).symm.trans hz, hpc⟩

end Sys2Proof.Machine
end
